-- ==== Sys2Proof/Word.lean ====
section
/-! DEFINITION. The bus widths and value types of the codec (spec rules R6, R15, R16, R17, R29).

The widths are the constants of rule R6: a 32-bit word of four bytes, an 8-bit opcode byte, a 24-bit
operand field, 6-bit register identifiers, immediates of 12, 18 and 24 bits. -/

namespace Sys2Proof

/-- A byte, `u8`. -/
abbrev Byte := BitVec 8

/-- The operand field `f`, bits 23..0 of a word (R31, R43). -/
abbrev Field := BitVec 24

/-- The 32-bit big-endian integer view of a word (R30). -/
abbrev Word32 := BitVec 32

/-- The three operand bytes of a word, `B1` the most significant (R29). -/
structure Bytes3 where
  b1 : Byte
  b2 : Byte
  b3 : Byte
deriving DecidableEq, Repr

/-- The four bytes of an instruction word in wire order, `B0` the opcode byte (R29). -/
structure Bytes4 where
  b0 : Byte
  b1 : Byte
  b2 : Byte
  b3 : Byte
deriving DecidableEq, Repr

/-- The operand bytes of a word. -/
abbrev Bytes4.tail (w : Bytes4) : Bytes3 := ⟨w.b1, w.b2, w.b3⟩

/-- `RegisterId`: a 6-bit register index, 0 to 63 (R15). The register file it names is outside the
block (R22), and no operation checks the index against one. -/
structure RegId where
  bits : BitVec 6
deriving DecidableEq, Repr

/-- `Immediate12` (R16). -/
structure Imm12 where
  bits : BitVec 12
deriving DecidableEq, Repr

/-- `Immediate18` (R16). -/
structure Imm18 where
  bits : BitVec 18
deriving DecidableEq, Repr

/-- `Immediate24` (R16). -/
structure Imm24 where
  bits : BitVec 24
deriving DecidableEq, Repr

end Sys2Proof
end

