-- ==== Sys2Proof/Machine/ByteOrder.lean ====
section
/-! DEFINITION. Byte order: the views of one word and of one operand field (R7, R8, R29 to R32). -/

namespace Sys2Proof

/-- `be32(B0, B1, B2, B3) = B0 ++ B1 ++ B2 ++ B3` (R8, R30). -/
def be32 (w : Bytes4) : Word32 := w.b0 ++ w.b1 ++ w.b2 ++ w.b3

/-- `be24(B1, B2, B3) = B1 ++ B2 ++ B3` (R8, R31). -/
def be24 (b : Bytes3) : Field := b.b1 ++ b.b2 ++ b.b3

/-- `bytes4(w) = (w[31:24], w[23:16], w[15:8], w[7:0])` (R8). -/
def bytes4 (w : Word32) : Bytes4 :=
  ⟨w.extractLsb' 24 8, w.extractLsb' 16 8, w.extractLsb' 8 8, w.extractLsb' 0 8⟩

/-- `bytes3(f) = (f[23:16], f[15:8], f[7:0])` (R8). -/
def bytes3 (f : Field) : Bytes3 :=
  ⟨f.extractLsb' 16 8, f.extractLsb' 8 8, f.extractLsb' 0 8⟩

/-- A word from its opcode byte and its three operand bytes (R29, R43). -/
def wireWord (op : Byte) (b : Bytes3) : Bytes4 := ⟨op, b.b1, b.b2, b.b3⟩

end Sys2Proof
end

