-- ==== Sys2Proof/Config.lean ====
section
/-! DEFINITION. The block's one parameter, the opcode registry `REG` (R5, R13, R14, R107, R139), and
the synthetic test registry `TREG` (92_eei_decisions.md D9).

`REG` has no contents in the source (D2). It is a field of `Machine.State` that no step writes, so a
statement about every state is a statement about every well-formed `REG`. -/

namespace Sys2Proof

/-- The 8 operand shapes (R44). -/
inductive Shape where
  | none
  | r1
  | r2
  | r3
  | r4
  | r2i12
  | r1i18
  | i24
deriving DecidableEq, Repr

/-- An entry of the registry, `(byte, mnemonic, shape, doc)` (R5). -/
structure Entry where
  byte : Byte
  mnemonic : String
  shape : Shape
  doc : String
deriving DecidableEq, Repr

/-- `Opcode`: its values are the entries of `REG` (R18). That an opcode is one of a given registry's
is the predicate `op ∈ reg.entries`. -/
abbrev Opcode := Entry

/-- The well-formedness conditions of R14: (a) unique bytes, (b) unique mnemonics, (d) at most 256
entries. Condition (c) holds by the type of `shape`, and (e) puts no condition on order or `doc`. -/
def Registry.check (entries : List Entry) : Bool :=
  decide (entries.map Entry.byte).Nodup &&
    decide (entries.map Entry.mnemonic).Nodup &&
    decide (entries.length ≤ 256)

/-- A registry together with the proof that it is well-formed: an ill-formed one is rejected before
the block exists and is never checked during decode (R107, R139). -/
structure Registry where
  entries : List Entry
  wf : Registry.check entries = true
deriving DecidableEq, Repr

/-- The nine opcodes of `TREG` (D9). -/
inductive TestOpcode where
  | tnone
  | tr1
  | tr2
  | tr3
  | tr4
  | tr2i12
  | tr1i18
  | ti24
  | tr3b
deriving DecidableEq, Repr

/-- The `TREG` entry of a test opcode (table of D9). D9 gives no documentation strings, and none has
an effect (D17): they are empty here. -/
def TestOpcode.entry : TestOpcode → Entry
  | .tnone => ⟨0x00#8, "TNONE", .none, ""⟩
  | .tr1 => ⟨0x01#8, "TR1", .r1, ""⟩
  | .tr2 => ⟨0x02#8, "TR2", .r2, ""⟩
  | .tr3 => ⟨0x03#8, "TR3", .r3, ""⟩
  | .tr4 => ⟨0x04#8, "TR4", .r4, ""⟩
  | .tr2i12 => ⟨0x05#8, "TR2I12", .r2i12, ""⟩
  | .tr1i18 => ⟨0x06#8, "TR1I18", .r1i18, ""⟩
  | .ti24 => ⟨0x07#8, "TI24", .i24, ""⟩
  | .tr3b => ⟨0x13#8, "TR3B", .r3, ""⟩

/-- The test opcodes in the order of D9's table. -/
def TestOpcode.all : List TestOpcode :=
  [.tnone, .tr1, .tr2, .tr3, .tr4, .tr2i12, .tr1i18, .ti24, .tr3b]

/-- The synthetic test registry `TREG` (D9). It is not the upstream registry. -/
def Config.treg : Registry := ⟨TestOpcode.all.map TestOpcode.entry, by decide⟩

/-- DESIGN CHOICE (log entry 2): the registry of `Machine.State.reset`. The source gives `REG` no
contents (D2), so the one registry the spec writes out stands in its place. -/
def Config.resetRegistry : Registry := Config.treg

/-- The types whose values the spec says are hashed (R17, R21). -/
inductive HashKind where
  | regId
  | imm12
  | imm18
  | imm24
  | instruction
deriving DecidableEq, Repr

/-- FREE VALUE (log entry 8): the hash of a value. R21 says that hashing is structural and gives no hash function. The
number is the raw value of a primitive, or the encoded 32-bit word of an instruction, whose equality is the value's
equality (R21); nothing else is known of the result. -/
opaque Config.hash : HashKind → Nat → Nat

end Sys2Proof
end

