-- ==== Sys2Proof/Syntax.lean ====
section
/-! DEFINITION. The typed values that travel on the block's buses (R10, R17 to R21, R62, R96) and `Instr`, the rows
of spec/opcode_table.json. -/

namespace Sys2Proof

/-- `Operands(S)`, the typed operand tuple of shape `S`, fields in declaration order (R19). -/
inductive Operands : Shape → Type where
  | none : Operands .none
  | r1 (a : RegId) : Operands .r1
  | r2 (a b : RegId) : Operands .r2
  | r3 (a b c : RegId) : Operands .r3
  | r4 (a b c d : RegId) : Operands .r4
  | r2i12 (a b : RegId) (i : Imm12) : Operands .r2i12
  | r1i18 (a : RegId) (i : Imm18) : Operands .r1i18
  | i24 (i : Imm24) : Operands .i24
deriving DecidableEq, Repr

/-- The per-opcode type `Op_b`: a type of its own for each opcode, holding one operand tuple of the
opcode's shape, that is, its canonical three bytes (R19, D4). -/
structure Op (op : Opcode) where
  fields : Operands op.shape
deriving DecidableEq, Repr

/-- `Instruction`: an opcode and an operand tuple of that opcode's shape (R20). -/
structure Instruction where
  op : Opcode
  payload : Operands op.shape
deriving DecidableEq, Repr

/-- The field and accessor names of R62. -/
inductive FieldName where
  | registerA
  | registerB
  | registerC
  | registerD
  | immediate
deriving DecidableEq, Repr

/-- An immediate with its own width: no immediate type converts to another (R17, R96). -/
inductive Immediate where
  | imm12 (i : Imm12)
  | imm18 (i : Imm18)
  | imm24 (i : Imm24)
deriving DecidableEq, Repr

/-- The value of one field. -/
inductive FieldValue where
  | reg (r : RegId)
  | imm (i : Immediate)
deriving DecidableEq, Repr

/-- The block's single error kind. It carries no data (R121, D5). -/
inductive CodecError where
  | invalidOpcode
deriving DecidableEq, Repr

/-- `Result α = Ok(v) | Err(InvalidOpcode)` (R10). -/
inductive Result (α : Type) where
  | ok (v : α)
  | err (e : CodecError)
deriving DecidableEq, Repr

/-- The rows of spec/opcode_table.json, one constructor each.

An `any…` row is a word whose opcode byte `op` is registered with that shape; it stands for every
entry of `REG` that is no entry of `TREG`. `unregistered` is a word whose opcode byte is not
registered (R57); it spells no `Instruction`. A `t…` row is a word of a `TREG` opcode (D9). -/
inductive Instr where
  | anyNone (op : Byte)
  | anyR1 (op : Byte) (a : RegId)
  | anyR2 (op : Byte) (a b : RegId)
  | anyR3 (op : Byte) (a b c : RegId)
  | anyR4 (op : Byte) (a b c d : RegId)
  | anyR2I12 (op : Byte) (a b : RegId) (i : Imm12)
  | anyR1I18 (op : Byte) (a : RegId) (i : Imm18)
  | anyI24 (op : Byte) (i : Imm24)
  | unregistered (op : Byte) (ignored : Field)
  | tnone
  | tr1 (a : RegId)
  | tr2 (a b : RegId)
  | tr3 (a b c : RegId)
  | tr4 (a b c d : RegId)
  | tr2i12 (a b : RegId) (i : Imm12)
  | tr1i18 (a : RegId) (i : Imm18)
  | ti24 (i : Imm24)
  | tr3b (a b c : RegId)
deriving DecidableEq, Repr

end Sys2Proof
end

