-- ==== Sys2Proof/Machine/RegistryOps.lean ====
section
/-! DEFINITION. The opcode registry's operations (43_opcode_registry.md). -/

namespace Sys2Proof

/-- `REG.lookup(b)`: the entry whose byte is `b`, or `none` (R11). -/
def Registry.lookup (reg : Registry) (b : Byte) : Option Entry :=
  reg.entries.find? fun e => e.byte == b

/-- R107: a configuration is built from a list that passes the check of R14, and refused otherwise. -/
def Registry.build (entries : List Entry) : Option Registry :=
  if h : Registry.check entries = true then some ⟨entries, h⟩ else none

/-- R103: validates an opcode byte; the only source of failure in the block. -/
def Opcode.fromByte (reg : Registry) (b : Byte) : Result Opcode :=
  match reg.lookup b with
  | some e => .ok e
  | none => .err .invalidOpcode

/-- R104. -/
def Opcode.toByte (op : Opcode) : Byte := op.byte

/-- R105: an opcode's operand shape. -/
def Opcode.shapeOf (op : Opcode) : Shape := op.shape

/-- R106: an opcode's name. -/
def Opcode.mnemonicOf (op : Opcode) : String := op.mnemonic

/-- Whether an entry of a registry is the given `TREG` row: the byte, mnemonic and shape of D9's
table agree. `doc` has no effect (D17). -/
def Entry.isRow (e : Entry) (row : TestOpcode) : Bool :=
  e.byte == row.entry.byte && e.shape == row.entry.shape && e.mnemonic == row.entry.mnemonic

/-- The `TREG` row an entry is, if it is one. -/
def Entry.testRow (e : Entry) : Option TestOpcode := TestOpcode.all.find? fun r => e.isRow r

end Sys2Proof
end

