-- ==== Sys2Proof/WellFormed.lean ====
section
/-! DEFINITION. Which rows, opcodes and instructions belong to a registry (R18, R20, R56, R57). -/

namespace Sys2Proof

/-- The opcode byte is registered with the given shape by an entry that is no `TREG` row. -/
def Registry.hasOther (reg : Registry) (b : Byte) (S : Shape) : Bool :=
  match reg.lookup b with
  | some e => e.shape == S && e.testRow.isNone
  | none => false

/-- The registry holds the given `TREG` row. -/
def Registry.hasRow (reg : Registry) (row : TestOpcode) : Bool :=
  match reg.lookup row.entry.byte with
  | some e => e.isRow row
  | none => false

/-- A row of the opcode table is well-formed for a registry when its words are that row's and no
other's: the opcode byte is registered with the row's shape (R56), or not registered at all (R57).
The operand fields need no check, since their types fix their widths (R90). -/
def Instr.wellFormed (reg : Registry) : Instr → Bool
  | .anyNone op => reg.hasOther op .none
  | .anyR1 op _ => reg.hasOther op .r1
  | .anyR2 op _ _ => reg.hasOther op .r2
  | .anyR3 op _ _ _ => reg.hasOther op .r3
  | .anyR4 op _ _ _ _ => reg.hasOther op .r4
  | .anyR2I12 op _ _ _ => reg.hasOther op .r2i12
  | .anyR1I18 op _ _ => reg.hasOther op .r1i18
  | .anyI24 op _ => reg.hasOther op .i24
  | .unregistered op _ => (reg.lookup op).isNone
  | .tnone => reg.hasRow .tnone
  | .tr1 _ => reg.hasRow .tr1
  | .tr2 _ _ => reg.hasRow .tr2
  | .tr3 _ _ _ => reg.hasRow .tr3
  | .tr4 _ _ _ _ => reg.hasRow .tr4
  | .tr2i12 _ _ _ => reg.hasRow .tr2i12
  | .tr1i18 _ _ => reg.hasRow .tr1i18
  | .ti24 _ => reg.hasRow .ti24
  | .tr3b _ _ _ => reg.hasRow .tr3b

/-- An opcode is one of the registry's (R18). -/
abbrev Registry.holds (reg : Registry) (op : Opcode) : Prop := op ∈ reg.entries

/-- An instruction is one of the registry's (R20): its payload has its opcode's shape by type. -/
abbrev Instruction.of (reg : Registry) (i : Instruction) : Prop := reg.holds i.op

end Sys2Proof
end

