-- ==== Sys2Proof/Decode.lean ====
section
/-! DEFINITION. Which row of spec/opcode_table.json a word is, and the word of a row. Both are written from the bit
patterns of the table and of R46 to R53, on the 32-bit view of the word; the block's own decode and
encode (R110, R111) are in Machine/Union.lean. -/

namespace Sys2Proof

/-- Pattern bits `a`, w[23:18]. -/
def wordA (w : Word32) : RegId := ⟨w.extractLsb' 18 6⟩

/-- Pattern bits `b`, w[17:12]. -/
def wordB (w : Word32) : RegId := ⟨w.extractLsb' 12 6⟩

/-- Pattern bits `c`, w[11:6]. -/
def wordC (w : Word32) : RegId := ⟨w.extractLsb' 6 6⟩

/-- Pattern bits `d`, w[5:0]. -/
def wordD (w : Word32) : RegId := ⟨w.extractLsb' 0 6⟩

/-- Pattern bits `i` of shape R2I12, w[11:0]. -/
def wordImm12 (w : Word32) : Imm12 := ⟨w.extractLsb' 0 12⟩

/-- Pattern bits `i` of shape R1I18, w[17:0]. -/
def wordImm18 (w : Word32) : Imm18 := ⟨w.extractLsb' 0 18⟩

/-- Pattern bits `i` of shape I24, w[23:0]. -/
def wordImm24 (w : Word32) : Imm24 := ⟨w.extractLsb' 0 24⟩

/-- A word of a `TREG` row. -/
def decodeTestRow (row : TestOpcode) (w : Word32) : Instr :=
  match row with
  | .tnone => .tnone
  | .tr1 => .tr1 (wordA w)
  | .tr2 => .tr2 (wordA w) (wordB w)
  | .tr3 => .tr3 (wordA w) (wordB w) (wordC w)
  | .tr4 => .tr4 (wordA w) (wordB w) (wordC w) (wordD w)
  | .tr2i12 => .tr2i12 (wordA w) (wordB w) (wordImm12 w)
  | .tr1i18 => .tr1i18 (wordA w) (wordImm18 w)
  | .ti24 => .ti24 (wordImm24 w)
  | .tr3b => .tr3b (wordA w) (wordB w) (wordC w)

/-- A word whose opcode byte `op` is registered with shape `S` by an entry that is no `TREG` row. -/
def decodeAnyRow (op : Byte) (S : Shape) (w : Word32) : Instr :=
  match S with
  | .none => .anyNone op
  | .r1 => .anyR1 op (wordA w)
  | .r2 => .anyR2 op (wordA w) (wordB w)
  | .r3 => .anyR3 op (wordA w) (wordB w) (wordC w)
  | .r4 => .anyR4 op (wordA w) (wordB w) (wordC w) (wordD w)
  | .r2i12 => .anyR2I12 op (wordA w) (wordB w) (wordImm12 w)
  | .r1i18 => .anyR1I18 op (wordA w) (wordImm18 w)
  | .i24 => .anyI24 op (wordImm24 w)

/-- The row of the opcode table that a word is, under a registry. Total on the four bytes: a word
that spells no instruction is the table's row `unregistered_opcode_byte` (R57). -/
def decodeInstr (reg : Registry) (w : Bytes4) : Instr :=
  match reg.lookup w.b0 with
  | none => .unregistered w.b0 ((be32 w).extractLsb' 0 24)
  | some e =>
    match e.testRow with
    | some row => decodeTestRow row (be32 w)
    | none => decodeAnyRow w.b0 e.shape (be32 w)

/-- The 32-bit pattern of a row of the opcode table, every reserved bit 0. -/
def instrWord : Instr → Word32
  | .anyNone op => op ++ 0#24
  | .anyR1 op a => op ++ a.bits ++ 0#18
  | .anyR2 op a b => op ++ a.bits ++ b.bits ++ 0#12
  | .anyR3 op a b c => op ++ a.bits ++ b.bits ++ c.bits ++ 0#6
  | .anyR4 op a b c d => op ++ a.bits ++ b.bits ++ c.bits ++ d.bits
  | .anyR2I12 op a b i => op ++ a.bits ++ b.bits ++ i.bits
  | .anyR1I18 op a i => op ++ a.bits ++ i.bits
  | .anyI24 op i => op ++ i.bits
  | .unregistered op f => op ++ f
  | .tnone => 0x00#8 ++ 0#24
  | .tr1 a => 0x01#8 ++ a.bits ++ 0#18
  | .tr2 a b => 0x02#8 ++ a.bits ++ b.bits ++ 0#12
  | .tr3 a b c => 0x03#8 ++ a.bits ++ b.bits ++ c.bits ++ 0#6
  | .tr4 a b c d => 0x04#8 ++ a.bits ++ b.bits ++ c.bits ++ d.bits
  | .tr2i12 a b i => 0x05#8 ++ a.bits ++ b.bits ++ i.bits
  | .tr1i18 a i => 0x06#8 ++ a.bits ++ i.bits
  | .ti24 i => 0x07#8 ++ i.bits
  | .tr3b a b c => 0x13#8 ++ a.bits ++ b.bits ++ c.bits ++ 0#6

/-- The four bytes of a row of the opcode table, in wire order (R29). -/
def encodeInstr (i : Instr) : Bytes4 := bytes4 (instrWord i)

/-- The word whose bits are `w`, numbered as spec/opcode_table.json numbers them, in wire order. The
bits above `nbits` are 0. -/
def tableWord (nbits w : Nat) : Bytes4 := bytes4 (BitVec.ofNat 32 (w % 2 ^ nbits))

/-- The instruction the decoder reads from a table word under `Config.resetRegistry`, the registry of
`State.reset` (log entry 2). -/
def decodeTableWord (nbits w : Nat) : Option Instr :=
  some (decodeInstr Config.resetRegistry (tableWord nbits w))

end Sys2Proof
end

