-- ==== Sys2Proof/Machine/Ports.lean ====
section
/-! DEFINITION. What travels on the block's ports: one request for each operation of 40_primitives.md to
45_named_constructors.md (D1) and for the equality and hashing of R17 and R21, the value it answers, and the callers' side of the interface (R2, R28, R133). -/

namespace Sys2Proof.Machine

/-- An operation of the block with its arguments. Arguments are typed as the operation's rule types them; that an opcode
is one of `REG`'s is checked by `Request.of`. -/
inductive Request where
  | regIdNew (raw : Nat)                                  -- R63
  | regIdValue (r : RegId)                                -- R64
  | imm12New (raw : Nat)                                  -- R65
  | imm12Value (i : Imm12)                                -- R66
  | imm18New (raw : Nat)                                  -- R67
  | imm18Value (i : Imm18)                                -- R68
  | imm24New (raw : Nat)                                  -- R69
  | imm24Value (i : Imm24)                                -- R70
  | pack (S : Shape) (t : Operands S)                     -- R71 to R85, odd
  | packBytes (S : Shape) (t : Operands S)                -- the 3-byte form
  | unpack (S : Shape) (f : Field)                        -- R72 to R86, even
  | unpackBytes (S : Shape) (b : Bytes3)                  -- the 3-byte form
  | opNew (op : Opcode) (t : Operands op.shape)           -- R91
  | opRegisterA (op : Opcode) (x : Op op)                 -- R92
  | opRegisterB (op : Opcode) (x : Op op)                 -- R93
  | opRegisterC (op : Opcode) (x : Op op)                 -- R94
  | opRegisterD (op : Opcode) (x : Op op)                 -- R95
  | opImmediate (op : Opcode) (x : Op op)                 -- R96
  | opUnpack (op : Opcode) (x : Op op)                    -- R97
  | opToOperandBytes (op : Opcode) (x : Op op)            -- R98
  | opToWireBytes (op : Opcode) (x : Op op)               -- R99
  | opToU32 (op : Opcode) (x : Op op)                     -- R100
  | opIntoInstruction (op : Opcode) (x : Op op)           -- R101
  | opFromOperandBytes (op : Opcode) (b : Bytes3)         -- R102
  | fromByte (b : Byte)                                   -- R103
  | toByte (op : Opcode)                                  -- R104
  | shapeOf (op : Opcode)                                 -- R105
  | mnemonicOf (op : Opcode)                              -- R106
  | decode (w : Bytes4)                                   -- R110
  | encode (i : Instruction)                              -- R111
  | encodeU32 (i : Instruction)                           -- R112
  | opcodeOf (i : Instruction)                            -- R113
  | construct (op : Opcode) (t : Operands op.shape)       -- R119
  | regIdEqual (x y : RegId)                              -- R17, R21
  | imm12Equal (x y : Imm12)                              -- R17, R21
  | imm18Equal (x y : Imm18)                              -- R17, R21
  | imm24Equal (x y : Imm24)                              -- R17, R21
  | instructionEqual (x y : Instruction)                  -- R21
  | regIdHash (x : RegId)                                 -- R17, R21
  | imm12Hash (x : Imm12)                                 -- R17, R21
  | imm18Hash (x : Imm18)                                 -- R17, R21
  | imm24Hash (x : Imm24)                                 -- R17, R21
  | instructionHash (x : Instruction)                     -- R21
deriving DecidableEq, Repr

/-- The opcodes a request's arguments carry. -/
def Request.opcodes : Request → List Opcode
  | .regIdNew _ => []
  | .regIdValue _ => []
  | .imm12New _ => []
  | .imm12Value _ => []
  | .imm18New _ => []
  | .imm18Value _ => []
  | .imm24New _ => []
  | .imm24Value _ => []
  | .pack _ _ => []
  | .packBytes _ _ => []
  | .unpack _ _ => []
  | .unpackBytes _ _ => []
  | .opNew op _ => [op]
  | .opRegisterA op _ => [op]
  | .opRegisterB op _ => [op]
  | .opRegisterC op _ => [op]
  | .opRegisterD op _ => [op]
  | .opImmediate op _ => [op]
  | .opUnpack op _ => [op]
  | .opToOperandBytes op _ => [op]
  | .opToWireBytes op _ => [op]
  | .opToU32 op _ => [op]
  | .opIntoInstruction op _ => [op]
  | .opFromOperandBytes op _ => [op]
  | .fromByte _ => []
  | .toByte op => [op]
  | .shapeOf op => [op]
  | .mnemonicOf op => [op]
  | .decode _ => []
  | .encode i => [i.op]
  | .encodeU32 i => [i.op]
  | .opcodeOf i => [i.op]
  | .construct op _ => [op]
  | .regIdEqual _ _ => []
  | .imm12Equal _ _ => []
  | .imm18Equal _ _ => []
  | .imm24Equal _ _ => []
  | .instructionEqual x y => [x.op, y.op]
  | .regIdHash _ => []
  | .imm12Hash _ => []
  | .imm18Hash _ => []
  | .imm24Hash _ => []
  | .instructionHash x => [x.op]

/-- The request's arguments are values of the registry's types (R18 to R20). -/
abbrev Request.of (reg : Registry) (r : Request) : Prop := ∀ op ∈ r.opcodes, reg.holds op

/-- A value on the block's output bus. -/
inductive Value where
  | regId (r : RegId)
  | immediate (i : Immediate)
  | raw (n : Nat)
  | field (f : Field)
  | operands (S : Shape) (t : Operands S)
  | op (op : Opcode) (x : Op op)
  | instruction (i : Instruction)
  | opcode (op : Opcode)
  | shape (S : Shape)
  | mnemonic (m : String)
  | byte (b : Byte)
  | bytes3 (b : Bytes3)
  | bytes4 (w : Bytes4)
  | word32 (w : Word32)
  | bool (b : Bool)
  | hash (n : Nat)
deriving DecidableEq, Repr

/-- The opcode a value carries, if it carries one. -/
def Value.opcode? : Value → Option Opcode
  | .regId _ => none
  | .immediate _ => none
  | .raw _ => none
  | .field _ => none
  | .operands _ _ => none
  | .op o _ => some o
  | .instruction i => some i.op
  | .opcode o => some o
  | .shape _ => none
  | .mnemonic _ => none
  | .byte _ => none
  | .bytes3 _ => none
  | .bytes4 _ => none
  | .word32 _ => none
  | .bool _ => none
  | .hash _ => none

/-- What the environment does next: a caller presents one operation to the block, or the loader cuts a
program image into words for a caller (R34). Callers are numbered (R133). -/
inductive Event where
  | call (caller : Nat) (request : Request)
  | load (caller : Nat) (image : List Byte)
deriving DecidableEq, Repr

/-- The caller an event belongs to. -/
def Event.caller : Event → Nat
  | .call c _ => c
  | .load c _ => c

/-- A result as its caller holds it (P1 to P5, the caller's list of results). -/
structure Served where
  caller : Nat
  result : Result Value
deriving DecidableEq, Repr

end Sys2Proof.Machine
end

