-- ==== Sys2Proof/Machine/State.lean ====
section
/-! DEFINITION. The machine's state, the reasons a step can stop, and the state after reset.

The block itself holds no state (R12, R22 to R27): no field below is a register, a flag, a program counter or a memory of
the block. `reg` is its build-time configuration; the other fields are the callers' (95_test_vectors.md, Programs: "the
state below is the caller's"). -/

namespace Sys2Proof.Machine

/-- The configuration and the callers around the block. -/
structure State where
  /-- `REG` (R5, R13): fixed at build time, never written by a step. -/
  reg : Registry
  /-- What the callers and the loader will do, in the order in which it reaches the block (any order, R40). -/
  pending : List Event
  /-- The caller whose operation is being evaluated. -/
  active : Nat
  /-- The results returned so far, oldest first, each with its caller. -/
  served : List Served
  /-- The callers that have halted on an `InvalidOpcode` (R124), oldest first. -/
  halted : List Nat
deriving DecidableEq, Repr

/-- Why a step faults. The block raises no fault and takes no trap (R122, R126). -/
inductive Fault where
  /-- Raised by `step` when the next event belongs to a caller that has halted. R124 and 93 I7: a caller takes
  `InvalidOpcode` "as a fault that is never cleared". Safe: the machine stops where the source's caller has stopped. -/
  | callerHalted
deriving DecidableEq, Repr

/-- Why a step is refused. -/
inductive Refusal where
  /-- Raised by a refused arm of `exec` only. Safe. -/
  | notModelled (mnemonic : String)
  /-- Raised by a meaning whose row is no row of the state's `REG`, and by a request that carries an opcode that is no
  entry of it: no such value exists (R18, R20). Safe. -/
  | notInRegistry
  /-- Raised by a request for a field the opcode's shape lacks (D16: "a type error or a refusal, never a value"). Safe. -/
  | noSuchAccessor
  /-- Raised by the loader for an image whose length is no multiple of 4 (R35, D8). Safe. -/
  | partialImage
deriving DecidableEq, Repr

/-- A machine built with the given registry, before any caller has done anything (R137 to R139). -/
def State.resetWith (reg : Registry) : State where
  reg := reg
  pending := []
  active := 0
  served := []
  halted := []

/-- The machine right after reset. The block has nothing to reset and `REG` is unchanged by reset (R137);
DESIGN CHOICE (log entry 2): the registry is `Config.resetRegistry`. -/
def State.reset : State := State.resetWith Config.resetRegistry

/-- The results a caller has received, oldest first. -/
def State.resultsOf (s : State) (c : Nat) : List (Result Value) :=
  (s.served.filter fun v => v.caller == c).map Served.result

end Sys2Proof.Machine
end

