-- ==== Sys2Proof/Machine/Flags.lean ====
section
/-! DEFINITION. The block has no flags and no condition codes (R24). Its only status is the `Ok` or `Err` tag of a
result, which is part of the result and is not stored by the block. -/

namespace Sys2Proof.Machine

/-- The status the block outputs with a result: whether its tag is `Ok` (R24). -/
def statusOk {α : Type} : Result α → Bool
  | .ok _ => true
  | .err _ => false

end Sys2Proof.Machine
end

