-- ==== Sys2Proof/Machine/Loader.lean ====
section
/-! DEFINITION. The external loader's split of a program image into instruction words (R33 to R35, D7, D8). -/

namespace Sys2Proof

/-- R34: word `k` is `(Image[4k], Image[4k+1], Image[4k+2], Image[4k+3])`. R35: an image whose
length is not a multiple of 4 is refused (`none`), neither padded nor decoded in part. -/
def imageWords : List Byte → Option (List Bytes4)
  | [] => some []
  | b0 :: b1 :: b2 :: b3 :: rest => (imageWords rest).map fun ws => ⟨b0, b1, b2, b3⟩ :: ws
  | _ => none

/-- The bytes of a list of words, in wire order. -/
def wordsImage : List Bytes4 → List Byte
  | [] => []
  | w :: ws => w.b0 :: w.b1 :: w.b2 :: w.b3 :: wordsImage ws

end Sys2Proof
end

