-- ==== Sys2Proof/Machine/Ops.lean ====
section
/-! DEFINITION. The named operations over the state: handing a result to its caller, the block's one error, and the
loader. The block has no memory and no registers to read or write (R12, R28). -/

namespace Sys2Proof.Machine

/-- Hands a result to the caller being served. -/
def deliver (r : Result Value) (s : State) : State :=
  { s with served := s.served ++ [⟨s.active, r⟩] }

/-- A caller halts (R124): it is marked, and none of its further events reaches the block. -/
def haltCaller (c : Nat) (s : State) : State :=
  { s with
    halted := s.halted ++ [c]
    pending := s.pending.filter fun e => e.caller != c }

/-- `raise InvalidOpcode()`: the error is returned to the immediate caller as a result value (R10, R121), and that caller
stops (R124). There is no trap entry: nothing is saved, no mode or mask changes and control goes nowhere (R126). There is no
return from it (R127). -/
def raiseInvalidOpcode (s : State) : Host.Outcome State Fault Refusal :=
  .next (haltCaller s.active (deliver (.err .invalidOpcode) s))

/-- Ends an operation with its result. -/
def respond (r : Result Value) (s : State) : Host.Outcome State Fault Refusal :=
  match r with
  | .ok v => .next (deliver (.ok v) s)
  | .err .invalidOpcode => raiseInvalidOpcode s

/-- The instruction of a registry with opcode byte `b` and the given operands, if `b` is registered with their shape
(R20, R56). -/
def instructionOf (reg : Registry) (b : Byte) {S : Shape} (t : Operands S) : Option Instruction :=
  match reg.lookup b with
  | some e => if h : S = e.shape then some ⟨e, h ▸ t⟩ else none
  | none => none

/-- Decoding answers `Ok(Instruction(op, t))` for a word whose opcode byte `b` is registered with the shape of `t` (R110). -/
def respondRow (b : Byte) {S : Shape} (t : Operands S) (s : State) : Host.Outcome State Fault Refusal :=
  match instructionOf s.reg b t with
  | some i => respond (.ok (.instruction i)) s
  | none => .refused .notInRegistry

/-- The same for a word of a `TREG` row, where `REG` holds that row. -/
def respondTestRow (row : TestOpcode) (t : Operands row.entry.shape) (s : State) :
    Host.Outcome State Fault Refusal :=
  if s.reg.hasRow row then respondRow row.entry.byte t s else .refused .notInRegistry

/-- The loader cuts an image into words and feeds them to the decode operation for a caller, in image order (R34). An
image that is not a whole number of words is refused (R35). DESIGN CHOICE (log entry 16): R34 does not say where these
decodes stand among the other pending events, and D15 orders no operations; they go ahead of every pending event. -/
def loadImage (c : Nat) (image : List Byte) (s : State) : Host.Outcome State Fault Refusal :=
  match imageWords image with
  | some ws => .next { s with pending := ws.map (fun w => .call c (.decode w)) ++ s.pending }
  | none => .refused .partialImage

/-- The head event leaves the queue and its caller is the one being served. -/
def beginEvent (c : Nat) (rest : List Event) (s : State) : State :=
  { s with pending := rest, active := c }

end Sys2Proof.Machine
end

