-- ==== Sys2Proof/Machine/AnyRows.lean ====
section
/-! DEFINITION. The rows of spec/opcode_table.json that hold for every registry: a word whose opcode byte is registered
with a given shape. The block executes no decoded instruction (R136); what it does with such a word is R110's decode. -/

namespace Sys2Proof.Machine

/-- `<any REG opcode of shape NONE>`: R110 with the layout of R46. -/
def execAnyNone (op : Byte) (s : State) : Host.Outcome State Fault Refusal := respondRow op .none s

/-- `<any REG opcode of shape R1>`: R110 with the layout of R47. -/
def execAnyR1 (op : Byte) (a : RegId) (s : State) : Host.Outcome State Fault Refusal :=
  respondRow op (.r1 a) s

/-- `<any REG opcode of shape R2>`: R110 with the layout of R48. -/
def execAnyR2 (op : Byte) (a b : RegId) (s : State) : Host.Outcome State Fault Refusal :=
  respondRow op (.r2 a b) s

/-- `<any REG opcode of shape R3>`: R110 with the layout of R49. -/
def execAnyR3 (op : Byte) (a b c : RegId) (s : State) : Host.Outcome State Fault Refusal :=
  respondRow op (.r3 a b c) s

/-- `<any REG opcode of shape R4>`: R110 with the layout of R50. -/
def execAnyR4 (op : Byte) (a b c d : RegId) (s : State) : Host.Outcome State Fault Refusal :=
  respondRow op (.r4 a b c d) s

/-- `<any REG opcode of shape R2I12>`: R110 with the layout of R51. -/
def execAnyR2I12 (op : Byte) (a b : RegId) (i : Imm12) (s : State) : Host.Outcome State Fault Refusal :=
  respondRow op (.r2i12 a b i) s

/-- `<any REG opcode of shape R1I18>`: R110 with the layout of R52. -/
def execAnyR1I18 (op : Byte) (a : RegId) (i : Imm18) (s : State) : Host.Outcome State Fault Refusal :=
  respondRow op (.r1i18 a i) s

/-- `<any REG opcode of shape I24>`: R110 with the layout of R53. -/
def execAnyI24 (op : Byte) (i : Imm24) (s : State) : Host.Outcome State Fault Refusal :=
  respondRow op (.i24 i) s

end Sys2Proof.Machine
end

