-- ==== Sys2Proof/Machine/InvalidRow.lean ====
section
/-! DEFINITION. The row `<unregistered opcode byte>` of spec/opcode_table.json (R57, R121). -/

namespace Sys2Proof.Machine

/-- Decoding answers `Err(InvalidOpcode)` whatever the operand bits are (R57, R110, R125): a returned value, not a trap. -/
def execUnregistered (op : Byte) (_ignored : Field) (s : State) : Host.Outcome State Fault Refusal :=
  match s.reg.lookup op with
  | none => raiseInvalidOpcode s
  | some _ => .refused .notInRegistry

end Sys2Proof.Machine
end

