-- ==== Sys2Proof/Machine/TestRows.lean ====
section
/-! DEFINITION. The rows of spec/opcode_table.json for the entries of the test registry `TREG` (D9), each by R110 with the
layout of its shape. -/

namespace Sys2Proof.Machine

/-- `TNONE`, byte 0x00, shape NONE (R46). -/
def execTnone (s : State) : Host.Outcome State Fault Refusal := respondTestRow .tnone .none s

/-- `TR1`, byte 0x01, shape R1 (R47). -/
def execTr1 (a : RegId) (s : State) : Host.Outcome State Fault Refusal := respondTestRow .tr1 (.r1 a) s

/-- `TR2`, byte 0x02, shape R2 (R48). -/
def execTr2 (a b : RegId) (s : State) : Host.Outcome State Fault Refusal := respondTestRow .tr2 (.r2 a b) s

/-- `TR3`, byte 0x03, shape R3 (R49). -/
def execTr3 (a b c : RegId) (s : State) : Host.Outcome State Fault Refusal :=
  respondTestRow .tr3 (.r3 a b c) s

/-- `TR4`, byte 0x04, shape R4 (R50). -/
def execTr4 (a b c d : RegId) (s : State) : Host.Outcome State Fault Refusal :=
  respondTestRow .tr4 (.r4 a b c d) s

/-- `TR2I12`, byte 0x05, shape R2I12 (R51). -/
def execTr2i12 (a b : RegId) (i : Imm12) (s : State) : Host.Outcome State Fault Refusal :=
  respondTestRow .tr2i12 (.r2i12 a b i) s

/-- `TR1I18`, byte 0x06, shape R1I18 (R52). -/
def execTr1i18 (a : RegId) (i : Imm18) (s : State) : Host.Outcome State Fault Refusal :=
  respondTestRow .tr1i18 (.r1i18 a i) s

/-- `TI24`, byte 0x07, shape I24 (R53). -/
def execTi24 (i : Imm24) (s : State) : Host.Outcome State Fault Refusal := respondTestRow .ti24 (.i24 i) s

/-- `TR3B`, byte 0x13, shape R3 (R49): a second opcode of that shape. -/
def execTr3b (a b c : RegId) (s : State) : Host.Outcome State Fault Refusal :=
  respondTestRow .tr3b (.r3 a b c) s

end Sys2Proof.Machine
end

