-- ==== Sys2Proof/Machine/Dispatch.lean ====
section
/-! DEFINITION. One arm per row of spec/opcode_table.json. -/

namespace Sys2Proof.Machine

def exec (i : Instr) (s : State) : Host.Outcome State Fault Refusal :=
  match i with
  | .anyNone op => Sys2Proof.Machine.execAnyNone op s
  | .anyR1 op a => Sys2Proof.Machine.execAnyR1 op a s
  | .anyR2 op a b => Sys2Proof.Machine.execAnyR2 op a b s
  | .anyR3 op a b c => Sys2Proof.Machine.execAnyR3 op a b c s
  | .anyR4 op a b c d => Sys2Proof.Machine.execAnyR4 op a b c d s
  | .anyR2I12 op a b imm => Sys2Proof.Machine.execAnyR2I12 op a b imm s
  | .anyR1I18 op a imm => Sys2Proof.Machine.execAnyR1I18 op a imm s
  | .anyI24 op imm => Sys2Proof.Machine.execAnyI24 op imm s
  | .unregistered op ignored => Sys2Proof.Machine.execUnregistered op ignored s
  | .tnone => Sys2Proof.Machine.execTnone s
  | .tr1 a => Sys2Proof.Machine.execTr1 a s
  | .tr2 a b => Sys2Proof.Machine.execTr2 a b s
  | .tr3 a b c => Sys2Proof.Machine.execTr3 a b c s
  | .tr4 a b c d => Sys2Proof.Machine.execTr4 a b c d s
  | .tr2i12 a b imm => Sys2Proof.Machine.execTr2i12 a b imm s
  | .tr1i18 a imm => Sys2Proof.Machine.execTr1i18 a imm s
  | .ti24 imm => Sys2Proof.Machine.execTi24 imm s
  | .tr3b a b c => Sys2Proof.Machine.execTr3b a b c s

end Sys2Proof.Machine
end

