-- ==== Sys2Proof/Machine/Operands.lean ====
section
/-! DEFINITION. Every operand form: the layout of the 8 shapes (R45 to R55, R62), packing and unpacking
(41_pack_unpack.md) and the field accessors (R92 to R96). -/

namespace Sys2Proof

/-- One field of a shape and the bits `hi` down to `lo` of the operand field that it fills. -/
structure Slot where
  name : FieldName
  hi : Nat
  lo : Nat
deriving DecidableEq, Repr

/-- The width of a field, `hi - lo + 1` (R7). -/
def Slot.width (s : Slot) : Nat := s.hi - s.lo + 1

/-- The shape tables of R46 to R53, which R62 gathers: the fields in declaration order. -/
def Shape.layout : Shape → List Slot
  | .none => []
  | .r1 => [⟨.registerA, 23, 18⟩]
  | .r2 => [⟨.registerA, 23, 18⟩, ⟨.registerB, 17, 12⟩]
  | .r3 => [⟨.registerA, 23, 18⟩, ⟨.registerB, 17, 12⟩, ⟨.registerC, 11, 6⟩]
  | .r4 => [⟨.registerA, 23, 18⟩, ⟨.registerB, 17, 12⟩, ⟨.registerC, 11, 6⟩, ⟨.registerD, 5, 0⟩]
  | .r2i12 => [⟨.registerA, 23, 18⟩, ⟨.registerB, 17, 12⟩, ⟨.immediate, 11, 0⟩]
  | .r1i18 => [⟨.registerA, 23, 18⟩, ⟨.immediate, 17, 0⟩]
  | .i24 => [⟨.immediate, 23, 0⟩]

/-- How many bits a shape's fields fill (R55). -/
def Shape.fieldBits (S : Shape) : Nat := (S.layout.map Slot.width).sum

/-- How many low bits of the operand field a shape leaves reserved (R46 to R53). -/
def Shape.reservedBits : Shape → Nat
  | .none => 24
  | .r1 => 18
  | .r2 => 12
  | .r3 => 6
  | .r4 => 0
  | .r2i12 => 0
  | .r1i18 => 0
  | .i24 => 0

/-- The reserved mask (R46 to R53). -/
def Shape.reservedMask : Shape → Field
  | .none => 0xFFFFFF#24
  | .r1 => 0x03FFFF#24
  | .r2 => 0x000FFF#24
  | .r3 => 0x00003F#24
  | .r4 => 0x000000#24
  | .r2i12 => 0x000000#24
  | .r1i18 => 0x000000#24
  | .i24 => 0x000000#24

/-- The canonical mask `CMASK_S` (R46 to R53, R88). -/
def Shape.canonicalMask : Shape → Field
  | .none => 0x000000#24
  | .r1 => 0xFC0000#24
  | .r2 => 0xFFF000#24
  | .r3 => 0xFFFFC0#24
  | .r4 => 0xFFFFFF#24
  | .r2i12 => 0xFFFFFF#24
  | .r1i18 => 0xFFFFFF#24
  | .i24 => 0xFFFFFF#24

/-- A field value moved to bit `lo` of the operand field: `v << lo` on the zero-extended value. -/
def place {n : Nat} (v : BitVec n) (lo : Nat) : Field := v.setWidth 24 <<< lo

/-- R71. -/
def packNone : Field := 0#24

/-- R73: `a << 18`. -/
def packR1 (a : RegId) : Field := place a.bits 18

/-- R75: `(a << 18) | (b << 12)`. -/
def packR2 (a b : RegId) : Field := place a.bits 18 ||| place b.bits 12

/-- R77: `(a << 18) | (b << 12) | (c << 6)`. -/
def packR3 (a b c : RegId) : Field := place a.bits 18 ||| place b.bits 12 ||| place c.bits 6

/-- R79: `(a << 18) | (b << 12) | (c << 6) | d`. -/
def packR4 (a b c d : RegId) : Field :=
  place a.bits 18 ||| place b.bits 12 ||| place c.bits 6 ||| place d.bits 0

/-- R81: `(a << 18) | (b << 12) | i`. -/
def packR2I12 (a b : RegId) (i : Imm12) : Field :=
  place a.bits 18 ||| place b.bits 12 ||| place i.bits 0

/-- R83: `(a << 18) | i`. -/
def packR1I18 (a : RegId) (i : Imm18) : Field := place a.bits 18 ||| place i.bits 0

/-- R85: `i`. -/
def packI24 (i : Imm24) : Field := i.bits

/-- `pack_S`, the packing function of every shape. -/
def pack {S : Shape} : Operands S → Field
  | .none => packNone
  | .r1 a => packR1 a
  | .r2 a b => packR2 a b
  | .r3 a b c => packR3 a b c
  | .r4 a b c d => packR4 a b c d
  | .r2i12 a b i => packR2I12 a b i
  | .r1i18 a i => packR1I18 a i
  | .i24 i => packI24 i

/-- `n` bits of the operand field from bit `lo` up, by shifting and narrowing (R54). -/
def slice (f : Field) (lo n : Nat) : BitVec n := (f >>> lo).setWidth n

/-- R72: all 24 bits are ignored. -/
def unpackNone (_f : Field) : Operands .none := .none

/-- R74. -/
def unpackR1 (f : Field) : Operands .r1 := .r1 ⟨slice f 18 6⟩

/-- R76. -/
def unpackR2 (f : Field) : Operands .r2 := .r2 ⟨slice f 18 6⟩ ⟨slice f 12 6⟩

/-- R78. -/
def unpackR3 (f : Field) : Operands .r3 := .r3 ⟨slice f 18 6⟩ ⟨slice f 12 6⟩ ⟨slice f 6 6⟩

/-- R80. -/
def unpackR4 (f : Field) : Operands .r4 :=
  .r4 ⟨slice f 18 6⟩ ⟨slice f 12 6⟩ ⟨slice f 6 6⟩ ⟨slice f 0 6⟩

/-- R82. -/
def unpackR2I12 (f : Field) : Operands .r2i12 :=
  .r2i12 ⟨slice f 18 6⟩ ⟨slice f 12 6⟩ ⟨slice f 0 12⟩

/-- R84. -/
def unpackR1I18 (f : Field) : Operands .r1i18 := .r1i18 ⟨slice f 18 6⟩ ⟨slice f 0 18⟩

/-- R86. -/
def unpackI24 (f : Field) : Operands .i24 := .i24 ⟨slice f 0 24⟩

/-- `unpack_S`, the unpacking function of every shape. -/
def unpack (S : Shape) (f : Field) : Operands S :=
  match S with
  | .none => unpackNone f
  | .r1 => unpackR1 f
  | .r2 => unpackR2 f
  | .r3 => unpackR3 f
  | .r4 => unpackR4 f
  | .r2i12 => unpackR2I12 f
  | .r1i18 => unpackR1I18 f
  | .i24 => unpackI24 f

/-- R92: the first register field; NONE and I24 have none (D16). -/
def Operands.registerA {S : Shape} : Operands S → Option RegId
  | .none => .none
  | .r1 a => some a
  | .r2 a _ => some a
  | .r3 a _ _ => some a
  | .r4 a _ _ _ => some a
  | .r2i12 a _ _ => some a
  | .r1i18 a _ => some a
  | .i24 _ => .none

/-- R93: the second register field, of R2, R3, R4 and R2I12 only (D16). -/
def Operands.registerB {S : Shape} : Operands S → Option RegId
  | .none => .none
  | .r1 _ => .none
  | .r2 _ b => some b
  | .r3 _ b _ => some b
  | .r4 _ b _ _ => some b
  | .r2i12 _ b _ => some b
  | .r1i18 _ _ => .none
  | .i24 _ => .none

/-- R94: the third register field, of R3 and R4 only (D16). -/
def Operands.registerC {S : Shape} : Operands S → Option RegId
  | .none => .none
  | .r1 _ => .none
  | .r2 _ _ => .none
  | .r3 _ _ c => some c
  | .r4 _ _ c _ => some c
  | .r2i12 _ _ _ => .none
  | .r1i18 _ _ => .none
  | .i24 _ => .none

/-- R95: the fourth register field, of R4 only (D16). -/
def Operands.registerD {S : Shape} : Operands S → Option RegId
  | .none => .none
  | .r1 _ => .none
  | .r2 _ _ => .none
  | .r3 _ _ _ => .none
  | .r4 _ _ _ d => some d
  | .r2i12 _ _ _ => .none
  | .r1i18 _ _ => .none
  | .i24 _ => .none

/-- R96: the immediate field, of R2I12, R1I18 and I24 only, each with its own type (D16). -/
def Operands.immediate {S : Shape} : Operands S → Option Immediate
  | .none => .none
  | .r1 _ => .none
  | .r2 _ _ => .none
  | .r3 _ _ _ => .none
  | .r4 _ _ _ _ => .none
  | .r2i12 _ _ i => some (.imm12 i)
  | .r1i18 _ i => some (.imm18 i)
  | .i24 i => some (.imm24 i)

/-- The field of a given name (R62), `none` where the shape lacks it. -/
def Operands.field {S : Shape} (t : Operands S) : FieldName → Option FieldValue
  | .registerA => t.registerA.map .reg
  | .registerB => t.registerB.map .reg
  | .registerC => t.registerC.map .reg
  | .registerD => t.registerD.map .reg
  | .immediate => t.immediate.map .imm

end Sys2Proof
end

