-- ==== Sys2Proof/Machine/PerOpcode.lean ====
section
/-! DEFINITION. The per-opcode instruction types (42_per_opcode_types.md): one rule per operation, for every opcode.
The accessors `registerA` to `immediate` (R92 to R96) read the held tuple. -/

namespace Sys2Proof

/-- R91: builds a per-opcode value from the fields of the opcode's shape. -/
def Op.new (op : Opcode) (t : Operands op.shape) : Op op := ⟨t⟩

/-- R92. -/
def Op.registerA {op : Opcode} (x : Op op) : Option RegId := x.fields.registerA

/-- R93. -/
def Op.registerB {op : Opcode} (x : Op op) : Option RegId := x.fields.registerB

/-- R94. -/
def Op.registerC {op : Opcode} (x : Op op) : Option RegId := x.fields.registerC

/-- R95. -/
def Op.registerD {op : Opcode} (x : Op op) : Option RegId := x.fields.registerD

/-- R96. -/
def Op.immediate {op : Opcode} (x : Op op) : Option Immediate := x.fields.immediate

/-- R97: every field at once. -/
def Op.unpack {op : Opcode} (x : Op op) : Operands op.shape := x.fields

/-- R98: `bytes3(pack_S(t))`. -/
def Op.toOperandBytes {op : Opcode} (x : Op op) : Bytes3 := bytes3 (pack x.fields)

/-- R99: the opcode byte, which the type fixes, before the operand bytes. -/
def Op.toWireBytes {op : Opcode} (x : Op op) : Bytes4 := wireWord op.byte x.toOperandBytes

/-- R100: `(b << 24) | pack_S(t)`. -/
def Op.toU32 {op : Opcode} (x : Op op) : Word32 :=
  (op.byte.setWidth 32 <<< 24) ||| (pack x.fields).setWidth 32

/-- R101: wraps the value in the `Instruction` union. -/
def Op.intoInstruction {op : Opcode} (x : Op op) : Instruction := ⟨op, x.fields⟩

/-- R102: the payload from three operand bytes; the reserved bits are discarded here (D4). -/
def Op.fromOperandBytes (op : Opcode) (b : Bytes3) : Op op := ⟨Sys2Proof.unpack op.shape (be24 b)⟩

end Sys2Proof
end

