-- ==== Sys2Proof/Machine/Named.lean ====
section
/-! DEFINITION. Named constructors (45_named_constructors.md): one for every opcode, and `TREG`'s nine by name (D9). -/

namespace Sys2Proof

/-- R119: `Op_b.new(fields).intoInstruction()`. -/
def namedConstructor (op : Opcode) (t : Operands op.shape) : Instruction :=
  (Op.new op t).intoInstruction

/-- D11: the constructor's name is the mnemonic in lower case. DESIGN CHOICE (log entry 17): R119 and D11 do not say which
letters that changes; `A` to `Z` are lowered and every other character stays. -/
def constructorName (op : Opcode) : String := String.ofList (op.mnemonic.toList.map Char.toLower)

/-- `tnone()` (D9). -/
def tnone : Instruction := namedConstructor TestOpcode.tnone.entry .none

/-- `tr1(a)` (D9). -/
def tr1 (a : RegId) : Instruction := namedConstructor TestOpcode.tr1.entry (.r1 a)

/-- `tr2(a, b)` (D9). -/
def tr2 (a b : RegId) : Instruction := namedConstructor TestOpcode.tr2.entry (.r2 a b)

/-- `tr3(a, b, c)` (D9). -/
def tr3 (a b c : RegId) : Instruction := namedConstructor TestOpcode.tr3.entry (.r3 a b c)

/-- `tr4(a, b, c, d)` (D9). -/
def tr4 (a b c d : RegId) : Instruction := namedConstructor TestOpcode.tr4.entry (.r4 a b c d)

/-- `tr2i12(a, b, imm12)` (D9). -/
def tr2i12 (a b : RegId) (i : Imm12) : Instruction :=
  namedConstructor TestOpcode.tr2i12.entry (.r2i12 a b i)

/-- `tr1i18(a, imm18)` (D9). -/
def tr1i18 (a : RegId) (i : Imm18) : Instruction :=
  namedConstructor TestOpcode.tr1i18.entry (.r1i18 a i)

/-- `ti24(imm24)` (D9). -/
def ti24 (i : Imm24) : Instruction := namedConstructor TestOpcode.ti24.entry (.i24 i)

/-- `tr3b(a, b, c)` (D9). -/
def tr3b (a b c : RegId) : Instruction := namedConstructor TestOpcode.tr3b.entry (.r3 a b c)

end Sys2Proof
end

