-- ==== Sys2Proof/Machine/Primitives.lean ====
section
/-! DEFINITION. Constructors and accessors of the bit-field primitives (40_primitives.md). A constructor takes a
natural number and masks it to the type's width (D3). -/

namespace Sys2Proof

/-- R63: `RegId(raw mod 2^6)`. -/
def RegId.new (raw : Nat) : RegId := ⟨BitVec.ofNat 6 raw⟩

/-- R64: the number 0 to 63 held. -/
def RegId.value (r : RegId) : Nat := r.bits.toNat

/-- R65: `Imm12(raw mod 2^12)`. -/
def Imm12.new (raw : Nat) : Imm12 := ⟨BitVec.ofNat 12 raw⟩

/-- R66: the number 0 to 4095 held. -/
def Imm12.value (i : Imm12) : Nat := i.bits.toNat

/-- R67: `Imm18(raw mod 2^18)`. -/
def Imm18.new (raw : Nat) : Imm18 := ⟨BitVec.ofNat 18 raw⟩

/-- R68: the number 0 to 262143 held. -/
def Imm18.value (i : Imm18) : Nat := i.bits.toNat

/-- R69: `Imm24(raw mod 2^24)`. -/
def Imm24.new (raw : Nat) : Imm24 := ⟨BitVec.ofNat 24 raw⟩

/-- R70: the number 0 to 16777215 held. -/
def Imm24.value (i : Imm24) : Nat := i.bits.toNat

end Sys2Proof
end

