-- ==== Sys2Proof/Machine/Union.lean ====
section
/-! DEFINITION. Decode, encode and opcode extraction (44_instruction_union.md). -/

namespace Sys2Proof

/-- R110, `tryFrom`: step (1) validates the opcode byte, step (2) unpacks the operand bytes. The
operand bytes are not read where step (1) fails (R125). -/
def decode (reg : Registry) (w : Bytes4) : Result Instruction :=
  match Opcode.fromByte reg w.b0 with
  | .err e => .err e
  | .ok op => .ok ⟨op, unpack op.shape (be24 w.tail)⟩

/-- R111, `toBytes`: total, with every reserved bit zero. -/
def encode (i : Instruction) : Bytes4 :=
  wireWord (Opcode.toByte i.op) (bytes3 (pack i.payload))

/-- R112: `be32(encode(i))`. -/
def encodeU32 (i : Instruction) : Word32 := be32 (encode i)

/-- R113: an instruction's opcode. -/
def Instruction.opcode (i : Instruction) : Opcode := i.op

/-- The canonical words of a registry: the opcode byte is registered and every reserved bit of its
shape is zero (00_scope.md, Glossary). -/
def Registry.canonical (reg : Registry) (w : Bytes4) : Prop :=
  ∃ e, reg.lookup w.b0 = some e ∧ be24 w.tail &&& e.shape.reservedMask = 0#24

end Sys2Proof
end

