-- ==== Sys2Proof/Machine/Requests.lean ====
section
/-! DEFINITION. The block as a combinational function unit (D1): the result of one operation, a function of its arguments
and of `REG` alone (R12, R38, R40). -/

namespace Sys2Proof.Machine

/-- The value of a field accessor, `none` where the shape lacks the field. -/
def registerValue (r : Option RegId) : Option (Result Value) := r.map fun x => .ok (.regId x)

/-- The value of the `immediate()` accessor, `none` where the shape lacks the field. -/
def immediateValue (i : Option Immediate) : Option (Result Value) := i.map fun x => .ok (.immediate x)

/-- `fromByte`'s result on the output bus. -/
def opcodeResult : Result Opcode → Result Value
  | .ok op => .ok (.opcode op)
  | .err e => .err e

/-- `decode`'s result on the output bus. -/
def instructionResult : Result Instruction → Result Value
  | .ok i => .ok (.instruction i)
  | .err e => .err e

/-- R21: two instructions are equal iff their opcodes are equal and their payload tuples are equal field by field. -/
def instructionEqual (x y : Instruction) : Bool :=
  x.op == y.op && [FieldName.registerA, .registerB, .registerC, .registerD, .immediate].all fun n =>
    x.payload.field n == y.payload.field n

/-- One evaluation of an operation. `none` answers only an accessor for a field the opcode's shape lacks (D16). -/
def evalRequest (reg : Registry) : Request → Option (Result Value)
  | .regIdNew raw => some (.ok (.regId (RegId.new raw)))
  | .regIdValue r => some (.ok (.raw r.value))
  | .imm12New raw => some (.ok (.immediate (.imm12 (Imm12.new raw))))
  | .imm12Value i => some (.ok (.raw i.value))
  | .imm18New raw => some (.ok (.immediate (.imm18 (Imm18.new raw))))
  | .imm18Value i => some (.ok (.raw i.value))
  | .imm24New raw => some (.ok (.immediate (.imm24 (Imm24.new raw))))
  | .imm24Value i => some (.ok (.raw i.value))
  | .pack _ t => some (.ok (.field (Sys2Proof.pack t)))
  | .packBytes _ t => some (.ok (.bytes3 (Sys2Proof.bytes3 (Sys2Proof.pack t))))
  | .unpack S f => some (.ok (.operands S (Sys2Proof.unpack S f)))
  | .unpackBytes S b => some (.ok (.operands S (Sys2Proof.unpack S (be24 b))))
  | .opNew op t => some (.ok (.op op (Op.new op t)))
  | .opRegisterA _ x => registerValue x.registerA
  | .opRegisterB _ x => registerValue x.registerB
  | .opRegisterC _ x => registerValue x.registerC
  | .opRegisterD _ x => registerValue x.registerD
  | .opImmediate _ x => immediateValue x.immediate
  | .opUnpack op x => some (.ok (.operands op.shape x.unpack))
  | .opToOperandBytes _ x => some (.ok (.bytes3 x.toOperandBytes))
  | .opToWireBytes _ x => some (.ok (.bytes4 x.toWireBytes))
  | .opToU32 _ x => some (.ok (.word32 x.toU32))
  | .opIntoInstruction _ x => some (.ok (.instruction x.intoInstruction))
  | .opFromOperandBytes op b => some (.ok (.op op (Op.fromOperandBytes op b)))
  | .fromByte b => some (opcodeResult (Opcode.fromByte reg b))
  | .toByte op => some (.ok (.byte (Opcode.toByte op)))
  | .shapeOf op => some (.ok (.shape (Opcode.shapeOf op)))
  | .mnemonicOf op => some (.ok (.mnemonic (Opcode.mnemonicOf op)))
  | .decode w => some (instructionResult (Sys2Proof.decode reg w))
  | .encode i => some (.ok (.bytes4 (Sys2Proof.encode i)))
  | .encodeU32 i => some (.ok (.word32 (Sys2Proof.encodeU32 i)))
  | .opcodeOf i => some (.ok (.opcode i.opcode))
  | .construct op t => some (.ok (.instruction (namedConstructor op t)))
  | .regIdEqual x y => some (.ok (.bool (x.bits == y.bits)))
  | .imm12Equal x y => some (.ok (.bool (x.bits == y.bits)))
  | .imm18Equal x y => some (.ok (.bool (x.bits == y.bits)))
  | .imm24Equal x y => some (.ok (.bool (x.bits == y.bits)))
  | .instructionEqual x y => some (.ok (.bool (instructionEqual x y)))
  | .regIdHash x => some (.ok (.hash (Config.hash .regId x.value)))
  | .imm12Hash x => some (.ok (.hash (Config.hash .imm12 x.value)))
  | .imm18Hash x => some (.ok (.hash (Config.hash .imm18 x.value)))
  | .imm24Hash x => some (.ok (.hash (Config.hash .imm24 x.value)))
  | .instructionHash x => some (.ok (.hash (Config.hash .instruction (Sys2Proof.encodeU32 x).toNat)))

/-- Serves one operation: its result goes to the caller. -/
def serveRequest (r : Request) (s : State) : Host.Outcome State Fault Refusal :=
  if r.of s.reg then
    match evalRequest s.reg r with
    | some res => respond res s
    | none => .refused .noSuchAccessor
  else .refused .notInRegistry

end Sys2Proof.Machine
end

