-- ==== Sys2Proof/Machine/Events.lean ====
section
/-! DEFINITION. What one event does: a decode of a word goes through the row of the opcode table that the word is, every
other operation is evaluated, and an image is cut into words. -/

namespace Sys2Proof.Machine

/-- One operation presented by the caller being served. -/
def runCall (r : Request) (s : State) : Host.Outcome State Fault Refusal :=
  match r with
  | .decode w => exec (decodeInstr s.reg w) s
  | r => serveRequest r s

/-- One event of the environment. -/
def runEvent (e : Event) (s : State) : Host.Outcome State Fault Refusal :=
  match e with
  | .call _ r => runCall r s
  | .load c image => loadImage c image s

/-- The next event of the queue; with nothing pending, no operation is evaluated and nothing changes (R27). -/
def stepEvent (s : State) : Host.Outcome State Fault Refusal :=
  match s.pending with
  | [] => .next s
  | e :: rest =>
    if e.caller ∈ s.halted then .fault .callerHalted else runEvent e (beginEvent e.caller rest s)

/-- The state in which the very next event is a decode of the given word, presented by the active caller. -/
def presentWord (w : Bytes4) (s : State) : State :=
  { s with
    pending := .call s.active (.decode w) :: s.pending
    halted := s.halted.filter fun c => c != s.active }

end Sys2Proof.Machine
end

