-- ==== Sys2Proof/Machine/Step.lean ====
section
/-! DEFINITION. The step: one event, one atomic evaluation (R37, D1). -/

namespace Sys2Proof.Machine

/-- One step of the machine. -/
def step (s : State) : Host.Outcome State Fault Refusal := stepEvent s

/-- `s` with the table word `w` presented to the decoder, so that the very next step decodes it. -/
def State.withFetchWord (s : State) (nbits w : Nat) : State := presentWord (tableWord nbits w) s

end Sys2Proof.Machine
end

