-- ==== Sys2Proof/Safety.lean ====
section
/-! DEFINITION. What a safe state is, in the terms the statements use. -/

namespace Sys2Proof.Machine

/-- No event of a halted caller is pending: a caller that got `InvalidOpcode` presents nothing more (R124). -/
def State.HaltedCallersAreQuiet (s : State) : Prop := ∀ e ∈ s.pending, e.caller ∉ s.halted

/-- A caller is halted exactly when one of its results is the error (R124, R127: the caller keeps it, not the block). -/
def State.HaltedIffError (s : State) : Prop :=
  ∀ c, c ∈ s.halted ↔ ∃ v ∈ s.served, v.caller = c ∧ v.result = .err .invalidOpcode

/-- Every opcode and every instruction the block has output is one of `REG`'s (R18, R20). -/
def State.OutputsOfRegistry (s : State) : Prop :=
  ∀ v ∈ s.served, ∀ x, v.result = .ok x → ∀ op ∈ x.opcode?, s.reg.holds op

/-- The invariant of the machine. -/
structure State.Inv (s : State) : Prop where
  quiet : s.HaltedCallersAreQuiet
  error : s.HaltedIffError
  outputs : s.OutputsOfRegistry

/-- The results a caller gets when it presents its operations to the block alone, halting on the first error (R40, R124). -/
def aloneResults (reg : Registry) : List Request → List (Result Value)
  | [] => []
  | r :: rest =>
    match evalRequest reg r with
    | some (.ok v) => .ok v :: aloneResults reg rest
    | some (.err e) => [.err e]
    | none => []

/-- The operations an event presents to the block: a call its own, an image the decodes of its words in image order (R34). -/
def Event.requests : Event → List Request
  | .call _ r => [r]
  | .load _ image => ((imageWords image).getD []).map .decode

/-- The operations a caller has pending, in order. -/
def requestsOf (c : Nat) (events : List Event) : List Request :=
  (events.filter fun e => e.caller == c).flatMap Event.requests

/-- The event can be served: an operation that `REG`'s types admit, that is, its opcode is registered and the field it asks
for exists; or an image that is a whole number of words (R35). -/
def Event.Answerable (reg : Registry) : Event → Prop
  | .call _ r => r.of reg ∧ evalRequest reg r ≠ none
  | .load _ image => image.length % 4 = 0

/-- How many steps serve an event: one for an operation; one for cutting an image and one for each of its words. -/
def Event.steps : Event → Nat
  | .call _ _ => 1
  | .load _ image => 1 + image.length / 4

end Sys2Proof.Machine
end

