-- ==== Sys2Proof/Certificates/Slice0/Obligations.lean ====
section
/-! DEFINITION. The statements for the provers. Each docstring names the rule of spec/ it formalises. `reg` and `s.reg`
range over every well-formed registry (R5), unless a statement names one. -/

open Sys2Proof Sys2Proof.Machine

/-! ### Bit-field primitives -/

/-- 40_primitives.md, RegisterId (R63), with the spec's own decision D3 (mask): `RegId.new(raw)` is `raw mod 2^6`, that is,
`raw & 0x3F`; no raw value is an error. -/
def Obligations.RegIdConstructorMasks : Prop :=
  ∀ (reg : Registry) (raw : Nat),
    evalRequest reg (.regIdNew raw) = some (.ok (.regId (RegId.new raw))) ∧
      (RegId.new raw).value = raw % 2 ^ 6 ∧ (RegId.new raw).value = raw &&& 0x3F

/-- 40_primitives.md, Immediates (R65, R67, R69), with the spec's own decision D3 (mask): the three immediate constructors
mask to 12, 18 and 24 bits; no raw value is an error. -/
def Obligations.ImmediateConstructorsMask : Prop :=
  ∀ (reg : Registry) (raw : Nat),
    (evalRequest reg (.imm12New raw) = some (.ok (.immediate (.imm12 (Imm12.new raw)))) ∧
      (Imm12.new raw).value = raw % 2 ^ 12 ∧ (Imm12.new raw).value = raw &&& 0xFFF) ∧
    (evalRequest reg (.imm18New raw) = some (.ok (.immediate (.imm18 (Imm18.new raw)))) ∧
      (Imm18.new raw).value = raw % 2 ^ 18 ∧ (Imm18.new raw).value = raw &&& 0x3FFFF) ∧
    (evalRequest reg (.imm24New raw) = some (.ok (.immediate (.imm24 (Imm24.new raw)))) ∧
      (Imm24.new raw).value = raw % 2 ^ 24 ∧ (Imm24.new raw).value = raw &&& 0xFFFFFF)

/-- 40_primitives.md (R64, R66, R68, R70): an accessor answers the number its value holds, in the range of its type, and it
reads back every raw value that fits. -/
def Obligations.PrimitiveAccessorsReadBack : Prop :=
  ∀ reg : Registry,
    (∀ r : RegId, evalRequest reg (.regIdValue r) = some (.ok (.raw r.value)) ∧
      r.value < 64 ∧ RegId.new r.value = r) ∧
    (∀ i : Imm12, evalRequest reg (.imm12Value i) = some (.ok (.raw i.value)) ∧
      i.value < 4096 ∧ Imm12.new i.value = i) ∧
    (∀ i : Imm18, evalRequest reg (.imm18Value i) = some (.ok (.raw i.value)) ∧
      i.value < 262144 ∧ Imm18.new i.value = i) ∧
    (∀ i : Imm24, evalRequest reg (.imm24Value i) = some (.ok (.raw i.value)) ∧
      i.value < 16777216 ∧ Imm24.new i.value = i) ∧
    (∀ v, v ≤ 63 → (RegId.new v).value = v) ∧ (∀ v, v ≤ 4095 → (Imm12.new v).value = v) ∧
    (∀ v, v ≤ 262143 → (Imm18.new v).value = v) ∧ (∀ v, v ≤ 16777215 → (Imm24.new v).value = v)

/-! ### Words, fields and layouts -/

/-- R30: the integer view of a word is big-endian, and an encode's integer is that view of its bytes. Beside it, from
00_scope.md R8 and the spec's inference R31: the byte views are inverse to the integer views, and bit `i` of the operand
field is bit `i` of the word. -/
def Obligations.WordViewsAreBigEndian : Prop :=
  (∀ w : Bytes4,
    (be32 w).toNat = w.b0.toNat * 2 ^ 24 + w.b1.toNat * 2 ^ 16 + w.b2.toNat * 2 ^ 8 + w.b3.toNat ∧
    (be32 w).extractLsb' 24 8 = w.b0 ∧ (be32 w).extractLsb' 16 8 = w.b1 ∧
    (be32 w).extractLsb' 8 8 = w.b2 ∧ (be32 w).extractLsb' 0 8 = w.b3 ∧
    (∀ i, i < 24 → (be24 w.tail).getLsbD i = (be32 w).getLsbD i) ∧ bytes4 (be32 w) = w) ∧
  (∀ x : Word32, be32 (bytes4 x) = x) ∧
  (∀ b : Bytes3, bytes3 (be24 b) = b) ∧ (∀ f : Field, be24 (bytes3 f) = f) ∧
  (∀ i : Instruction, encodeU32 i = be32 (encode i))

/-- R55: the field bits and the reserved bits of every shape, which sum to 24. -/
def Obligations.ShapeBitBudgets : Prop :=
  (∀ S : Shape, S.fieldBits + S.reservedBits = 24) ∧
  [Shape.none, .r1, .r2, .r3, .r4, .r2i12, .r1i18, .i24].map (fun S => (S.fieldBits, S.reservedBits)) =
    [(0, 24), (6, 18), (12, 12), (18, 6), (24, 0), (24, 0), (24, 0), (24, 0)]

/-- 30_encoding.md R46 to R53: the reserved mask is the shape's low reserved bits and the canonical mask is its
complement. -/
def Obligations.ShapeMasksAreComplementary : Prop :=
  ∀ S : Shape, S.reservedMask.toNat = 2 ^ S.reservedBits - 1 ∧ S.canonicalMask = ~~~S.reservedMask

/-- 41_pack_unpack.md R73 to R85 (odd), with `pack_NONE` by the spec's own decision D13 (log entry 15): the packed field of
every tuple, as a number; shifting left by `k` is multiplying by `2^k` (R9), and the fields do not overlap, so `|` is `+`. -/
def Obligations.PackPlacesFieldsByWeight : Prop :=
  (∀ (reg : Registry) (S : Shape) (t : Operands S),
    evalRequest reg (.pack S t) = some (.ok (.field (pack t))) ∧
    evalRequest reg (.packBytes S t) = some (.ok (.bytes3 (bytes3 (pack t))))) ∧
  (pack .none).toNat = 0 ∧
  (∀ a, (pack (.r1 a)).toNat = a.value * 2 ^ 18) ∧
  (∀ a b, (pack (.r2 a b)).toNat = a.value * 2 ^ 18 + b.value * 2 ^ 12) ∧
  (∀ a b c, (pack (.r3 a b c)).toNat = a.value * 2 ^ 18 + b.value * 2 ^ 12 + c.value * 2 ^ 6) ∧
  (∀ a b c d, (pack (.r4 a b c d)).toNat =
    a.value * 2 ^ 18 + b.value * 2 ^ 12 + c.value * 2 ^ 6 + d.value) ∧
  (∀ a b i, (pack (.r2i12 a b i)).toNat = a.value * 2 ^ 18 + b.value * 2 ^ 12 + i.value) ∧
  (∀ a i, (pack (.r1i18 a i)).toNat = a.value * 2 ^ 18 + i.value) ∧
  (∀ i, (pack (.i24 i)).toNat = i.value)

/-- R72 to R86 (even): what unpacking reads from any field, as a number; a constructor keeps the low bits of its type's
width, and no field is rejected. -/
def Obligations.UnpackReadsFieldsByWeight : Prop :=
  (∀ (reg : Registry) (S : Shape) (f : Field) (b : Bytes3),
    evalRequest reg (.unpack S f) = some (.ok (.operands S (unpack S f))) ∧
    evalRequest reg (.unpackBytes S b) = some (.ok (.operands S (unpack S (be24 b))))) ∧
  ∀ f : Field,
    unpack .none f = .none ∧
    unpack .r1 f = .r1 (RegId.new (f.toNat / 2 ^ 18)) ∧
    unpack .r2 f = .r2 (RegId.new (f.toNat / 2 ^ 18)) (RegId.new (f.toNat / 2 ^ 12)) ∧
    unpack .r3 f =
      .r3 (RegId.new (f.toNat / 2 ^ 18)) (RegId.new (f.toNat / 2 ^ 12)) (RegId.new (f.toNat / 2 ^ 6)) ∧
    unpack .r4 f = .r4 (RegId.new (f.toNat / 2 ^ 18)) (RegId.new (f.toNat / 2 ^ 12))
      (RegId.new (f.toNat / 2 ^ 6)) (RegId.new f.toNat) ∧
    unpack .r2i12 f =
      .r2i12 (RegId.new (f.toNat / 2 ^ 18)) (RegId.new (f.toNat / 2 ^ 12)) (Imm12.new f.toNat) ∧
    unpack .r1i18 f = .r1i18 (RegId.new (f.toNat / 2 ^ 18)) (Imm18.new f.toNat) ∧
    unpack .i24 f = .i24 (Imm24.new f.toNat)

/-- R87: packing then unpacking is the identity on tuples. -/
def Obligations.UnpackInvertsPack : Prop := ∀ (S : Shape) (t : Operands S), unpack S (pack t) = t

/-- R88: unpacking then packing clears exactly the reserved bits. -/
def Obligations.PackAfterUnpackClearsReserved : Prop :=
  ∀ (S : Shape) (f : Field), pack (unpack S f) = f &&& S.canonicalMask

/-- R89: two tuples that differ in exactly one field still differ in exactly that field after packing and unpacking. -/
def Obligations.PackedFieldsAreIsolated : Prop :=
  ∀ (S : Shape) (t t' : Operands S) (n : FieldName), t.field n ≠ t'.field n →
    (∀ m, m ≠ n → t.field m = t'.field m) →
    (unpack S (pack t)).field n ≠ (unpack S (pack t')).field n ∧
      ∀ m, m ≠ n → (unpack S (pack t)).field m = (unpack S (pack t')).field m

/-- 30_encoding.md R58, for NONE too (the spec's own decision D13): every encode writes the reserved bits as zero, and decode
ignores them. -/
def Obligations.ReservedBitsZeroOnEncodeIgnoredOnDecode : Prop :=
  (∀ i : Instruction, be24 (encode i).tail &&& i.op.shape.reservedMask = 0#24) ∧
  ∀ (reg : Registry) (w : Bytes4) (e : Entry), e ∈ reg.entries → e.byte = w.b0 →
    decode reg w = decode reg (wireWord w.b0 (bytes3 (be24 w.tail &&& ~~~e.shape.reservedMask)))

/-! ### Per-opcode types -/

/-- 42_per_opcode_types.md R92 to R96: each accessor reads its bits of the packed field, for the shapes that have the field;
for every other shape it answers no value (the spec's own decision D16). -/
def Obligations.AccessorsReadTheirBits : Prop :=
  ∀ (reg : Registry) (op : Opcode) (x : Op op),
    evalRequest reg (.opRegisterA op x) =
      (if op.shape = .none ∨ op.shape = .i24 then none
       else some (.ok (.regId ⟨(pack x.fields).extractLsb' 18 6⟩))) ∧
    evalRequest reg (.opRegisterB op x) =
      (if op.shape = .r2 ∨ op.shape = .r3 ∨ op.shape = .r4 ∨ op.shape = .r2i12
       then some (.ok (.regId ⟨(pack x.fields).extractLsb' 12 6⟩)) else none) ∧
    evalRequest reg (.opRegisterC op x) =
      (if op.shape = .r3 ∨ op.shape = .r4
       then some (.ok (.regId ⟨(pack x.fields).extractLsb' 6 6⟩)) else none) ∧
    evalRequest reg (.opRegisterD op x) =
      (if op.shape = .r4 then some (.ok (.regId ⟨(pack x.fields).extractLsb' 0 6⟩)) else none) ∧
    evalRequest reg (.opImmediate op x) =
      (match op.shape with
       | .r2i12 => some (.ok (.immediate (.imm12 ⟨(pack x.fields).extractLsb' 0 12⟩)))
       | .r1i18 => some (.ok (.immediate (.imm18 ⟨(pack x.fields).extractLsb' 0 18⟩)))
       | .i24 => some (.ok (.immediate (.imm24 ⟨(pack x.fields).extractLsb' 0 24⟩)))
       | _ => none)

/-- R91, R97, R98, R101: building a per-opcode value, reading all its fields and its operand
bytes, whose reserved bits are 0, and wrapping it. -/
def Obligations.PerOpcodeValuesHoldTheirFields : Prop :=
  ∀ (reg : Registry) (op : Opcode) (t : Operands op.shape),
    evalRequest reg (.opNew op t) = some (.ok (.op op (Op.new op t))) ∧
    evalRequest reg (.opUnpack op (Op.new op t)) = some (.ok (.operands op.shape t)) ∧
    evalRequest reg (.opIntoInstruction op (Op.new op t)) = some (.ok (.instruction ⟨op, t⟩)) ∧
    evalRequest reg (.opToOperandBytes op (Op.new op t)) = some (.ok (.bytes3 (bytes3 (pack t)))) ∧
    be24 (bytes3 (pack t)) &&& op.shape.reservedMask = 0#24

/-- 42_per_opcode_types.md R99, R100: the wire forms of a per-opcode value. Beside them, by the spec's own decision D4 (R102,
log entry 11): the way back from operand bytes drops the reserved bits. -/
def Obligations.PerOpcodeWireForms : Prop :=
  ∀ (reg : Registry) (op : Opcode) (x : Op op),
    evalRequest reg (.opToWireBytes op x) = some (.ok (.bytes4 x.toWireBytes)) ∧
    evalRequest reg (.opToU32 op x) = some (.ok (.word32 x.toU32)) ∧
    x.toWireBytes = ⟨op.byte, (bytes3 (pack x.fields)).b1, (bytes3 (pack x.fields)).b2,
      (bytes3 (pack x.fields)).b3⟩ ∧
    x.toU32 = be32 x.toWireBytes ∧ x.toU32.toNat = op.byte.toNat * 2 ^ 24 + (pack x.fields).toNat ∧
    (∀ b, evalRequest reg (.opFromOperandBytes op b) = some (.ok (.op op ⟨unpack op.shape (be24 b)⟩))) ∧
    Op.fromOperandBytes op x.toOperandBytes = x ∧
    ∀ b b', be24 b &&& op.shape.canonicalMask = be24 b' &&& op.shape.canonicalMask →
      Op.fromOperandBytes op b = Op.fromOperandBytes op b'

/-! ### The registry -/

/-- R103, R108: `fromByte` is `Ok` exactly for the registered bytes, with the entry of that byte; it fails with
`InvalidOpcode` otherwise; no byte is registered twice. -/
def Obligations.FromByteOkIffRegistered : Prop :=
  ∀ (reg : Registry) (b : Byte),
    (∀ op, Opcode.fromByte reg b = .ok op ↔ op ∈ reg.entries ∧ op.byte = b) ∧
    (Opcode.fromByte reg b = .err .invalidOpcode ↔ ∀ op ∈ reg.entries, op.byte ≠ b) ∧
    (∀ op, Opcode.fromByte reg b = .ok op →
      evalRequest reg (.fromByte b) = some (.ok (.opcode op))) ∧
    (Opcode.fromByte reg b = .err .invalidOpcode →
      evalRequest reg (.fromByte b) = some (.err .invalidOpcode)) ∧
    (reg.entries.map Entry.byte).Nodup

/-- 43_opcode_registry.md R109 (the spec derives it): `fromByte` and `toByte` are inverse. -/
def Obligations.OpcodeByteConversionsInvert : Prop :=
  ∀ reg : Registry,
    (∀ op ∈ reg.entries, Opcode.fromByte reg (Opcode.toByte op) = .ok op) ∧
    ∀ b op, Opcode.fromByte reg b = .ok op → Opcode.toByte op = b

/-- 43_opcode_registry.md R104, R105: an opcode's byte and shape are its entry's, and the byte identifies the opcode. Beside
them, by the spec's own decision D25 (R106, log entry 15): so does the mnemonic. -/
def Obligations.OpcodeAttributesIdentify : Prop :=
  ∀ (reg : Registry) (op : Opcode), op ∈ reg.entries →
    evalRequest reg (.toByte op) = some (.ok (.byte op.byte)) ∧
    evalRequest reg (.shapeOf op) = some (.ok (.shape op.shape)) ∧
    evalRequest reg (.mnemonicOf op) = some (.ok (.mnemonic op.mnemonic)) ∧
    ∀ op' ∈ reg.entries, (Opcode.toByte op = Opcode.toByte op' → op = op') ∧
      (Opcode.mnemonicOf op = Opcode.mnemonicOf op' → op = op')

/-- 43_opcode_registry.md R107 with the conditions of R14, among them the spec's own decisions D17 and D25: a registry is built from a list that has unique bytes, unique
mnemonics and at most 256 entries, unchanged, and from no other list. -/
def Obligations.OnlyWellFormedRegistriesAreBuilt : Prop :=
  ∀ entries : List Entry,
    (∀ reg, Registry.build entries = some reg → reg.entries = entries) ∧
    ((∃ reg, Registry.build entries = some reg) ↔
      (entries.map Entry.byte).Nodup ∧ (entries.map Entry.mnemonic).Nodup ∧ entries.length ≤ 256)

/-- 10_state.md R14 (e): the order of the registry's entries has no effect on any operation. -/
def Obligations.RegistryOrderHasNoEffect : Prop :=
  ∀ reg reg' : Registry, reg.entries.Perm reg'.entries →
    ∀ r : Request, evalRequest reg r = evalRequest reg' r ∧ (r.of reg ↔ r.of reg')

/-- 10_state.md R14 (e): the documentation strings have no effect: registries that agree but for them read every word as
the same row, and decode it to opcodes and operands that encode alike. -/
def Obligations.RegistryDocsHaveNoEffect : Prop :=
  ∀ reg reg' : Registry,
    reg.entries.map (fun e => (e.byte, e.mnemonic, e.shape)) =
      reg'.entries.map (fun e => (e.byte, e.mnemonic, e.shape)) →
    ∀ w : Bytes4, decodeInstr reg w = decodeInstr reg' w ∧
      ∀ i, decode reg w = .ok i → ∃ i', decode reg' w = .ok i' ∧ encode i' = encode i ∧
        i'.op.mnemonic = i.op.mnemonic ∧ i'.op.shape = i.op.shape

/-! ### The instruction union -/

/-- R110: decode answers the entry of the opcode byte with the operand field unpacked in that entry's shape, and
`InvalidOpcode` exactly when the opcode byte is not registered. -/
def Obligations.DecodeFollowsOpcodeByte : Prop :=
  ∀ (reg : Registry) (w : Bytes4),
    (∀ e ∈ reg.entries, e.byte = w.b0 → decode reg w = .ok ⟨e, unpack e.shape (be24 w.tail)⟩) ∧
    (decode reg w = .err .invalidOpcode ↔ ∀ e ∈ reg.entries, e.byte ≠ w.b0)

/-- R111: the four bytes of an encoded instruction, its reserved bits 0 and its first byte registered, and
(44_instruction_union.md R112) its integer. -/
def Obligations.EncodeFollowsLayout : Prop :=
  ∀ (reg : Registry) (i : Instruction),
    evalRequest reg (.encode i) = some (.ok (.bytes4 (encode i))) ∧
    evalRequest reg (.encodeU32 i) = some (.ok (.word32 (encodeU32 i))) ∧
    encode i = ⟨i.op.byte, (bytes3 (pack i.payload)).b1, (bytes3 (pack i.payload)).b2,
      (bytes3 (pack i.payload)).b3⟩ ∧
    encodeU32 i = be32 (encode i) ∧
    encodeU32 i = (i.op.byte.setWidth 32 <<< 24) ||| (pack i.payload).setWidth 32 ∧
    bytes4 (encodeU32 i) = encode i ∧
    be24 (encode i).tail &&& i.op.shape.reservedMask = 0#24 ∧
    (i.of reg → ∃ e ∈ reg.entries, e.byte = (encode i).b0)

/-- R113: the opcode of an instruction does not depend on the payload, and its byte is the encoding's first byte. -/
def Obligations.OpcodeExtraction : Prop :=
  ∀ (reg : Registry) (op : Opcode) (t : Operands op.shape),
    evalRequest reg (.opcodeOf ⟨op, t⟩) = some (.ok (.opcode op)) ∧
    Opcode.toByte (Instruction.opcode ⟨op, t⟩) = (encode ⟨op, t⟩).b0

/-- R114: decode after encode is the identity on the registry's instructions. -/
def Obligations.DecodeInvertsEncode : Prop :=
  ∀ (reg : Registry) (i : Instruction), i.of reg → decode reg (encode i) = .ok i

/-- R116: encode after decode clears exactly the reserved bits. Beside it, as the spec derives (R115, conflict C2): it is the
identity on canonical words. -/
def Obligations.EncodeAfterDecodeCanonicalizes : Prop :=
  ∀ (reg : Registry) (w : Bytes4) (e : Entry), e ∈ reg.entries → e.byte = w.b0 →
    ∃ i, decode reg w = .ok i ∧
      encode i = wireWord w.b0 (bytes3 (be24 w.tail &&& e.shape.canonicalMask)) ∧
      (be24 w.tail &&& e.shape.reservedMask = 0#24 → encode i = w)

/-- 44_instruction_union.md R117 (the spec derives it, conflict C5): decode is a bijection from the canonical words onto the registry's instructions, with inverse encode; on all
words with a registered opcode it is total and surjective, and not injective when some registered shape is under-full. -/
def Obligations.DecodeBijectiveOnCanonicalWords : Prop :=
  ∀ reg : Registry,
    (∀ w, reg.canonical w → ∃ i, i.of reg ∧ decode reg w = .ok i ∧ encode i = w) ∧
    (∀ i, i.of reg → reg.canonical (encode i) ∧ decode reg (encode i) = .ok i ∧
      ∀ w, reg.canonical w → decode reg w = .ok i → w = encode i) ∧
    (∀ w e, e ∈ reg.entries → e.byte = w.b0 → ∃ i, i.of reg ∧ decode reg w = .ok i) ∧
    ((∃ e ∈ reg.entries, 0 < e.shape.reservedBits) →
      ∃ w w' i, w ≠ w' ∧ decode reg w = .ok i ∧ decode reg w' = .ok i)

/-- R57, R118: the operand bytes never decide whether a word decodes. -/
def Obligations.OperandBytesNeverDecideSuccess : Prop :=
  ∀ (reg : Registry) (b : Byte),
    ((∀ e ∈ reg.entries, e.byte ≠ b) → ∀ t, decode reg (wireWord b t) = .err .invalidOpcode) ∧
    ((∃ e ∈ reg.entries, e.byte = b) → ∀ t, ∃ i, decode reg (wireWord b t) = .ok i)

/-- 10_state.md R21 with the spec's own decision D4: equality is structural, two instructions of a registry are equal exactly when their encodings are, and equal
values have equal hashes, whatever the hash function (a free value, log entry 8) is. -/
def Obligations.EqualityAndHashingAreStructural : Prop :=
  ∀ reg : Registry,
    (∀ x y : RegId, evalRequest reg (.regIdEqual x y) = some (.ok (.bool (decide (x = y)))) ∧
      (x = y ↔ x.value = y.value)) ∧
    (∀ x y : Imm12, evalRequest reg (.imm12Equal x y) = some (.ok (.bool (decide (x = y)))) ∧
      (x = y ↔ x.value = y.value)) ∧
    (∀ x y : Imm18, evalRequest reg (.imm18Equal x y) = some (.ok (.bool (decide (x = y)))) ∧
      (x = y ↔ x.value = y.value)) ∧
    (∀ x y : Imm24, evalRequest reg (.imm24Equal x y) = some (.ok (.bool (decide (x = y)))) ∧
      (x = y ↔ x.value = y.value)) ∧
    (∀ x y : Instruction,
      evalRequest reg (.instructionEqual x y) = some (.ok (.bool (decide (x = y)))) ∧
      (x.of reg → y.of reg → (x = y ↔ encode x = encode y))) ∧
    (∀ x y : RegId, x.value = y.value → evalRequest reg (.regIdHash x) = evalRequest reg (.regIdHash y)) ∧
    (∀ x y : Instruction, encode x = encode y →
      evalRequest reg (.instructionHash x) = evalRequest reg (.instructionHash y))

/-- 45_named_constructors.md R120 (the spec derives it): a named constructor agrees with decoding its packed word, which is canonical. -/
def Obligations.NamedConstructorsAreCanonical : Prop :=
  ∀ (reg : Registry) (op : Opcode) (t : Operands op.shape), op ∈ reg.entries →
    evalRequest reg (.construct op t) = some (.ok (.instruction ⟨op, t⟩)) ∧
    decode reg (encode (namedConstructor op t)) = .ok (namedConstructor op t) ∧
    encode (namedConstructor op t) = wireWord op.byte (bytes3 (pack t)) ∧
    reg.canonical (encode (namedConstructor op t))

/-- R122, with R121's two raisers: `InvalidOpcode` is answered by `fromByte` and `decode` on an unregistered opcode byte, and
by no other operation; every operation answers a result, but an accessor for a field that its value lacks (no such accessor
exists, decision D16). -/
def Obligations.OnlyUnregisteredBytesFail : Prop :=
  ∀ (reg : Registry) (r : Request),
    (∀ err : CodecError, evalRequest reg r = some (.err err) ↔
      (∃ b, r = .fromByte b ∧ ∀ e ∈ reg.entries, e.byte ≠ b) ∨
      (∃ w, r = .decode w ∧ ∀ e ∈ reg.entries, e.byte ≠ w.b0)) ∧
    (evalRequest reg r = none → ∃ (op : Opcode) (x : Op op),
      (r = .opRegisterA op x ∧ x.registerA = none) ∨ (r = .opRegisterB op x ∧ x.registerB = none) ∨
      (r = .opRegisterC op x ∧ x.registerC = none) ∨ (r = .opRegisterD op x ∧ x.registerD = none) ∨
      (r = .opImmediate op x ∧ x.immediate = none))

/-! ### The rows of the opcode table: what the decoder answers for a word of each row -/

/-- The rows of opcode_table.json valid for every `REG`, register shapes (44_instruction_union.md R110, 30_encoding.md R56): a
word whose opcode byte is registered with a register shape
answers `Ok` with that entry and the row's registers, and changes nothing else. -/
def Obligations.AnyRegisterRowsAnswer : Prop :=
  ∀ (s : State) (op : Byte) (m doc : String) (a b c d : RegId),
    (⟨op, m, .none, doc⟩ ∈ s.reg.entries → exec (.anyNone op) s = .next
      { s with served := s.served ++ [⟨s.active, .ok (.instruction ⟨⟨op, m, .none, doc⟩, .none⟩)⟩] }) ∧
    (⟨op, m, .r1, doc⟩ ∈ s.reg.entries → exec (.anyR1 op a) s = .next
      { s with served := s.served ++ [⟨s.active, .ok (.instruction ⟨⟨op, m, .r1, doc⟩, .r1 a⟩)⟩] }) ∧
    (⟨op, m, .r2, doc⟩ ∈ s.reg.entries → exec (.anyR2 op a b) s = .next
      { s with served := s.served ++ [⟨s.active, .ok (.instruction ⟨⟨op, m, .r2, doc⟩, .r2 a b⟩)⟩] }) ∧
    (⟨op, m, .r3, doc⟩ ∈ s.reg.entries → exec (.anyR3 op a b c) s = .next
      { s with served := s.served ++ [⟨s.active, .ok (.instruction ⟨⟨op, m, .r3, doc⟩, .r3 a b c⟩)⟩] }) ∧
    (⟨op, m, .r4, doc⟩ ∈ s.reg.entries → exec (.anyR4 op a b c d) s = .next
      { s with served := s.served ++ [⟨s.active, .ok (.instruction ⟨⟨op, m, .r4, doc⟩, .r4 a b c d⟩)⟩] })

/-- The rows of opcode_table.json valid for every `REG`, immediate shapes (44_instruction_union.md R110, 30_encoding.md R56). -/
def Obligations.AnyImmediateRowsAnswer : Prop :=
  ∀ (s : State) (op : Byte) (m doc : String) (a b : RegId) (i : Imm12) (j : Imm18) (k : Imm24),
    (⟨op, m, .r2i12, doc⟩ ∈ s.reg.entries → exec (.anyR2I12 op a b i) s = .next
      { s with served :=
          s.served ++ [⟨s.active, .ok (.instruction ⟨⟨op, m, .r2i12, doc⟩, .r2i12 a b i⟩)⟩] }) ∧
    (⟨op, m, .r1i18, doc⟩ ∈ s.reg.entries → exec (.anyR1I18 op a j) s = .next
      { s with served :=
          s.served ++ [⟨s.active, .ok (.instruction ⟨⟨op, m, .r1i18, doc⟩, .r1i18 a j⟩)⟩] }) ∧
    (⟨op, m, .i24, doc⟩ ∈ s.reg.entries → exec (.anyI24 op k) s = .next
      { s with served := s.served ++ [⟨s.active, .ok (.instruction ⟨⟨op, m, .i24, doc⟩, .i24 k⟩)⟩] })

/-- The rows of D9's register-shape opcodes, in any registry that holds them: each answers `Ok` with its own opcode and
registers, and changes nothing else. -/
def Obligations.TestRegisterRowsAnswer : Prop :=
  ∀ (s : State) (doc : String) (a b c d : RegId),
    (⟨0x00#8, "TNONE", .none, doc⟩ ∈ s.reg.entries → exec .tnone s = .next
      { s with served :=
          s.served ++ [⟨s.active, .ok (.instruction ⟨⟨0x00#8, "TNONE", .none, doc⟩, .none⟩)⟩] }) ∧
    (⟨0x01#8, "TR1", .r1, doc⟩ ∈ s.reg.entries → exec (.tr1 a) s = .next
      { s with served :=
          s.served ++ [⟨s.active, .ok (.instruction ⟨⟨0x01#8, "TR1", .r1, doc⟩, .r1 a⟩)⟩] }) ∧
    (⟨0x02#8, "TR2", .r2, doc⟩ ∈ s.reg.entries → exec (.tr2 a b) s = .next
      { s with served :=
          s.served ++ [⟨s.active, .ok (.instruction ⟨⟨0x02#8, "TR2", .r2, doc⟩, .r2 a b⟩)⟩] }) ∧
    (⟨0x03#8, "TR3", .r3, doc⟩ ∈ s.reg.entries → exec (.tr3 a b c) s = .next
      { s with served :=
          s.served ++ [⟨s.active, .ok (.instruction ⟨⟨0x03#8, "TR3", .r3, doc⟩, .r3 a b c⟩)⟩] }) ∧
    (⟨0x04#8, "TR4", .r4, doc⟩ ∈ s.reg.entries → exec (.tr4 a b c d) s = .next
      { s with served :=
          s.served ++ [⟨s.active, .ok (.instruction ⟨⟨0x04#8, "TR4", .r4, doc⟩, .r4 a b c d⟩)⟩] }) ∧
    (⟨0x13#8, "TR3B", .r3, doc⟩ ∈ s.reg.entries → exec (.tr3b a b c) s = .next
      { s with served :=
          s.served ++ [⟨s.active, .ok (.instruction ⟨⟨0x13#8, "TR3B", .r3, doc⟩, .r3 a b c⟩)⟩] })

/-- The rows of D9's immediate-shape opcodes, in any registry that holds them. -/
def Obligations.TestImmediateRowsAnswer : Prop :=
  ∀ (s : State) (doc : String) (a b : RegId) (i : Imm12) (j : Imm18) (k : Imm24),
    (⟨0x05#8, "TR2I12", .r2i12, doc⟩ ∈ s.reg.entries → exec (.tr2i12 a b i) s = .next
      { s with served :=
          s.served ++ [⟨s.active, .ok (.instruction ⟨⟨0x05#8, "TR2I12", .r2i12, doc⟩, .r2i12 a b i⟩)⟩] }) ∧
    (⟨0x06#8, "TR1I18", .r1i18, doc⟩ ∈ s.reg.entries → exec (.tr1i18 a j) s = .next
      { s with served :=
          s.served ++ [⟨s.active, .ok (.instruction ⟨⟨0x06#8, "TR1I18", .r1i18, doc⟩, .r1i18 a j⟩)⟩] }) ∧
    (⟨0x07#8, "TI24", .i24, doc⟩ ∈ s.reg.entries → exec (.ti24 k) s = .next
      { s with served :=
          s.served ++ [⟨s.active, .ok (.instruction ⟨⟨0x07#8, "TI24", .i24, doc⟩, .i24 k⟩)⟩] })

/-- 30_encoding.md R57 with 60_exceptions.md R124: a word with an unregistered opcode byte, whatever its operand bits, hands `Err(InvalidOpcode)` to the
caller, which halts; nothing else changes (R126). -/
def Obligations.UnregisteredRowAnswersInvalidOpcode : Prop :=
  ∀ (s : State) (op : Byte) (f : Field), (∀ e ∈ s.reg.entries, e.byte ≠ op) →
    exec (.unregistered op f) s = .next
      { s with
        served := s.served ++ [⟨s.active, .err .invalidOpcode⟩]
        halted := s.halted ++ [s.active]
        pending := s.pending.filter fun e => e.caller != s.active }

/-- The frame of every row: a next state differs from the old one in one result, handed to the active caller, and, for
the unregistered row only, in that caller's halt, which takes that caller's events, and no others, off the queue. -/
def Obligations.RowsChangeOnlyTheirCallersResult : Prop :=
  ∀ (i : Instr) (s t : State), exec i s = .next t →
    t.reg = s.reg ∧ t.active = s.active ∧ (∃ r, t.served = s.served ++ [⟨s.active, r⟩]) ∧
    (∀ c, c ≠ s.active → t.resultsOf c = s.resultsOf c) ∧
    ((∀ op f, i ≠ .unregistered op f) → t.pending = s.pending ∧ t.halted = s.halted) ∧
    ∀ op f, i = .unregistered op f →
      t.halted = s.halted ++ [s.active] ∧ t.pending = s.pending.filter fun e => e.caller != s.active

/-- Model's choice (log entry 6), after R18 and R20: a row never faults, it answers a next state when it is well-formed for
the state's registry, and the only refusal it can answer is `notInRegistry`. -/
def Obligations.RowsRunWhereWellFormed : Prop :=
  ∀ (i : Instr) (s : State),
    (i.wellFormed s.reg = true → ∃ t, exec i s = .next t) ∧
    (∀ r, exec i s ≠ .fault r) ∧ ∀ r, exec i s = .refused r → r = .notInRegistry

/-! ### Rows and words -/

/-- Worked words of 95_test_vectors.md V6, under `TREG`. -/
def Obligations.SpecWordsDecodeToTheirRows : Prop :=
  decodeInstr Config.treg ⟨0x00, 0x12, 0x34, 0x56⟩ = .tnone ∧
  decodeInstr Config.treg ⟨0x01, 0xFC, 0x00, 0x01⟩ = .tr1 (RegId.new 63) ∧
  decodeInstr Config.treg ⟨0x05, 0x0C, 0x73, 0xE8⟩ =
    .tr2i12 (RegId.new 3) (RegId.new 7) (Imm12.new 1000) ∧
  decodeInstr Config.treg ⟨0x13, 0x04, 0x20, 0xC0⟩ = .tr3b (RegId.new 1) (RegId.new 2) (RegId.new 3) ∧
  decodeInstr Config.treg ⟨0xFF, 0x01, 0x02, 0x03⟩ = .unregistered 0xFF 0x010203

/-- Decode and encode agree on the rows of the opcode table: under every registry, every row that is well-formed for it,
with every operand, is read back from its word. -/
def Obligations.RowsDecodeFromTheirWords : Prop :=
  ∀ (reg : Registry) (i : Instr), i.wellFormed reg = true → decodeInstr reg (encodeInstr i) = i

/-- Every word is a well-formed row, and the row's word is the given word with the reserved bits of its shape cleared
(R58); a word that spells no instruction keeps all its bits. -/
def Obligations.EveryWordIsAWellFormedRow : Prop :=
  ∀ (reg : Registry) (w : Bytes4),
    (decodeInstr reg w).wellFormed reg = true ∧
    (∀ e ∈ reg.entries, e.byte = w.b0 →
      encodeInstr (decodeInstr reg w) = wireWord w.b0 (bytes3 (be24 w.tail &&& e.shape.canonicalMask))) ∧
    ((∀ e ∈ reg.entries, e.byte ≠ w.b0) → encodeInstr (decodeInstr reg w) = w)

/-! ### The step -/

/-- A step runs the decoded instruction: a pending decode of the word of a well-formed row runs `exec` of that row, after
the event has left the queue and its caller is the active one. -/
def Obligations.StepRunsTheDecodedRow : Prop :=
  ∀ (s : State) (c : Nat) (rest : List Event), c ∉ s.halted →
    (∀ w, s.pending = .call c (.decode w) :: rest →
      step s = exec (decodeInstr s.reg w) { s with pending := rest, active := c }) ∧
    ∀ i : Instr, i.wellFormed s.reg = true → s.pending = .call c (.decode (encodeInstr i)) :: rest →
      step s = exec i { s with pending := rest, active := c }

/-- 44_instruction_union.md R110 through the step: the row that a step runs for a pending decode hands the caller exactly
what R110's decode answers for the word, registry by registry. -/
def Obligations.StepOfDecodeAgreesWithDecode : Prop :=
  ∀ (s : State) (c : Nat) (w : Bytes4) (rest : List Event), s.pending = .call c (.decode w) :: rest →
    c ∉ s.halted →
    (∀ i, decode s.reg w = .ok i → step s = .next
      { s with pending := rest, active := c, served := s.served ++ [⟨c, .ok (.instruction i)⟩] }) ∧
    (decode s.reg w = .err .invalidOpcode → step s = .next
      { s with
        pending := rest.filter fun e => e.caller != c
        active := c
        served := s.served ++ [⟨c, .err .invalidOpcode⟩]
        halted := s.halted ++ [c] })

/-- 20_memory.md R37, R38, with the spec's own decision D1: one step evaluates one pending operation whole and hands its result to its caller; nothing else
changes, but that a caller that gets the error halts (R124; that it halts after `fromByte` too is log entry 5, DEDUCED). A
request for a field that the shape lacks has no result (the spec's own decision D16); that the step then refuses it as
`noSuchAccessor` is the model's choice (log entry 12). -/
def Obligations.StepServesOneOperation : Prop :=
  ∀ (s : State) (c : Nat) (r : Request) (rest : List Event), s.pending = .call c r :: rest →
    c ∉ s.halted → r.of s.reg →
    (∀ v, evalRequest s.reg r = some (.ok v) → step s = .next
      { s with pending := rest, active := c, served := s.served ++ [⟨c, .ok v⟩] }) ∧
    (∀ err, evalRequest s.reg r = some (.err err) → step s = .next
      { s with
        pending := rest.filter fun e => e.caller != c
        active := c
        served := s.served ++ [⟨c, .err err⟩]
        halted := s.halted ++ [c] }) ∧
    (evalRequest s.reg r = none → step s = .refused .noSuchAccessor)

/-- Model's choice (log entry 6), after R18 and R20: a request whose opcode is no entry of the registry is refused. -/
def Obligations.ForeignOpcodesAreRefused : Prop :=
  ∀ (s : State) (c : Nat) (r : Request) (rest : List Event), s.pending = .call c r :: rest →
    c ∉ s.halted → ¬ r.of s.reg → step s = .refused .notInRegistry

/-- 20_memory.md R34, the spec's own decision D7: the loader cuts an image into words, word `k` being bytes `4k` to `4k+3` in that order, and feeds them to decode
in image order. That the decodes stand ahead of every event that was pending is the model's choice (log entry 16). -/
def Obligations.LoaderCutsImagesIntoWords : Prop :=
  ∀ (s : State) (c : Nat) (image : List Byte) (rest : List Event) (n : Nat),
    s.pending = .load c image :: rest → c ∉ s.halted → image.length = 4 * n →
    step s = .next
      { s with
        active := c
        pending := (List.range n).map (fun k => .call c (.decode
          ⟨image.getD (4 * k) 0, image.getD (4 * k + 1) 0, image.getD (4 * k + 2) 0,
            image.getD (4 * k + 3) 0⟩)) ++ rest }

/-- 20_memory.md R35, the spec's own decision D8: an image whose length is not a multiple of 4 is refused whole. -/
def Obligations.LoaderRefusesPartialWords : Prop :=
  ∀ (s : State) (c : Nat) (image : List Byte) (rest : List Event), s.pending = .load c image :: rest →
    c ∉ s.halted → image.length % 4 ≠ 0 → step s = .refused .partialImage

/-- 60_exceptions.md R124 and 93_implementation_defined.md I7 (log entry 5): an event of a halted caller is a fault. -/
def Obligations.HaltedCallersFault : Prop :=
  ∀ (s : State) (e : Event) (rest : List Event), s.pending = e :: rest → e.caller ∈ s.halted →
    step s = .fault .callerHalted

/-- Model's choice (log entry 4): with nothing pending, a step changes nothing. -/
def Obligations.IdleStepChangesNothing : Prop := ∀ s : State, s.pending = [] → step s = .next s

/-- 70_reset_and_hazards.md R137, the spec's own decision D14: an operation presented right after reset answers what it answers at any other time. -/
def Obligations.ResetChangesNoResult : Prop :=
  ∀ (s t : State) (c : Nat) (r : Request) (rest : List Event), s.pending = .call c r :: rest →
    step s = .next t →
    ∃ (v : Result Value) (t' : State), t.served = s.served ++ [⟨c, v⟩] ∧
      step { State.resetWith s.reg with pending := [.call c r] } = .next t' ∧
      t'.served = [⟨c, v⟩] ∧ t'.reg = s.reg

/-- The host's word runs next (log entry 3): a step of a state with a fetch word runs the row that the word is under the
state's registry, for the active caller, with the events that were pending before still pending. -/
def Obligations.FetchWordRunsNext : Prop :=
  ∀ (s : State) (nbits w : Nat),
    step (s.withFetchWord nbits w) = exec (decodeInstr s.reg (tableWord nbits w))
      { s with halted := s.halted.filter fun c => c != s.active }

/-! ### Invariants and whole-machine rules -/

/-- The invariant holds at reset, for every registry. -/
def Obligations.ResetMeetsTheInvariant : Prop :=
  (∀ reg : Registry, (State.resetWith reg).Inv) ∧ State.reset.Inv

/-- Every step from a state that meets the invariant gives a state that meets it: a halted caller presents nothing more,
exactly the callers that got the error are halted, and every opcode and instruction output is one of `REG`'s. -/
def Obligations.EveryStepKeepsTheInvariant : Prop :=
  ∀ s t : State, s.Inv → step s = .next t → t.Inv

/-- In a state that meets the invariant no step faults. -/
def Obligations.NoFaultUnderTheInvariant : Prop := ∀ s : State, s.Inv → ∀ r, step s ≠ .fault r

/-- 10_state.md R13 and 60_exceptions.md R124: no step writes the registry, takes back a result or clears a halt. -/
def Obligations.StepsNeverUndoResultsOrHalts : Prop :=
  ∀ s t : State, step s = .next t →
    t.reg = s.reg ∧ s.served <+: t.served ∧ s.halted <+: t.halted

/-- 10_state.md R12 and 20_memory.md R38, with the spec's own decision D1: the result of an operation depends on its arguments and on `REG` alone: two machines that agree
on these hand their callers equal results, whatever else they hold. -/
def Obligations.ResultsDependOnArgumentsAndRegistry : Prop :=
  ∀ (s s' t : State) (c c' : Nat) (r : Request) (rest rest' : List Event), s.reg = s'.reg →
    s.pending = .call c r :: rest → s'.pending = .call c' r :: rest' → c' ∉ s'.halted →
    step s = .next t →
    ∃ (v : Result Value) (t' : State), step s' = .next t' ∧
      t.served = s.served ++ [⟨c, v⟩] ∧ t'.served = s'.served ++ [⟨c', v⟩]

/-- 20_memory.md R40 and 60_exceptions.md R124, R133, with the spec's own decision D15: however the operations and images of
several callers are interleaved, the machine serves them all, and each caller gets exactly the results it gets when it
presents its own operations to the block alone, halting on its first error (after `fromByte` too: log entry 5). -/
def Obligations.InterleavedCallersGetTheirLoneResults : Prop :=
  ∀ s : State, s.HaltedCallersAreQuiet → (∀ e ∈ s.pending, e.Answerable s.reg) →
    ∃ t : State, Host.Core.run core (s.pending.map Event.steps).sum s = .next t ∧ t.pending = [] ∧
      ∀ c, t.resultsOf c = s.resultsOf c ++ aloneResults s.reg (requestsOf c s.pending)

/-- 20_memory.md R34, R40 and 60_exceptions.md R124, R133, with the spec's own decisions D7 and D15: every step, whichever
caller's operation or image it serves, keeps for every caller the results it has received followed by those that its pending
operations give it alone, halting on its first error (after `fromByte` too: log entry 5). -/
def Obligations.StepsKeepEveryCallersResults : Prop :=
  ∀ s t : State, s.HaltedCallersAreQuiet → step s = .next t →
    t.HaltedCallersAreQuiet ∧ ∀ c,
      t.resultsOf c ++ aloneResults t.reg (requestsOf c t.pending) =
        s.resultsOf c ++ aloneResults s.reg (requestsOf c s.pending)
end

