-- ==== Sys2Proof/Laws/Bits.lean ====
section
/-! SUPPORT. Bits and numbers of words and operand fields: where a packed field stands, what a slice reads, what a
concatenation is as a number. -/

namespace Sys2Proof

/-- Bit `i` of a field placed at bit `lo`. -/
theorem place_getElem {n : Nat} (v : BitVec n) (lo i : Nat) (h : i < 24) :
    (place v lo)[i] = (decide (lo ≤ i) && v.getLsbD (i - lo)) := by
  rw [BitVec.getElem_eq_testBit_toNat, ← BitVec.getLsbD]
  unfold place
  rw [BitVec.getLsbD_shiftLeft, BitVec.getLsbD_setWidth]
  by_cases hlo : lo ≤ i
  · have h1 : ¬ i < lo := by omega
    have h2 : i - lo < 24 := by omega
    simp [h, hlo, h1, h2]
  · have h1 : i < lo := by omega
    simp [h, hlo, h1]

/-- A placed field as a number: `v << lo` is `v * 2^lo` (R9), where it fits. -/
theorem place_toNat {n : Nat} (v : BitVec n) (lo : Nat) (h : n + lo ≤ 24) :
    (place v lo).toNat = v.toNat * 2 ^ lo := by
  have hv := v.isLt
  have h24 : v.toNat < 2 ^ 24 := lt_of_lt_of_le hv (Nat.pow_le_pow_right (by omega) (by omega))
  have hlo : v.toNat * 2 ^ lo < 2 ^ 24 :=
    calc v.toNat * 2 ^ lo < 2 ^ n * 2 ^ lo := Nat.mul_lt_mul_of_pos_right hv (by positivity)
      _ = 2 ^ (n + lo) := by rw [pow_add]
      _ ≤ 2 ^ 24 := Nat.pow_le_pow_right (by omega) h
  simp only [place, BitVec.toNat_shiftLeft, BitVec.toNat_setWidth, Nat.shiftLeft_eq]
  rw [Nat.mod_eq_of_lt h24, Nat.mod_eq_of_lt hlo]

/-- Bit `i` of a slice. -/
theorem slice_getElem (f : Field) (lo n i : Nat) (h : i < n) :
    (slice f lo n)[i] = f.getLsbD (lo + i) := by
  rw [BitVec.getElem_eq_testBit_toNat, ← BitVec.getLsbD]
  unfold slice
  rw [BitVec.getLsbD_setWidth, BitVec.getLsbD_ushiftRight]
  simp [h]

/-- A slice by shifting and narrowing is the extracted bit range. -/
theorem slice_eq_extract (f : Field) (lo n : Nat) : slice f lo n = f.extractLsb' lo n := by
  ext i h
  rw [slice_getElem, BitVec.getElem_extractLsb']

/-- `v[lo+n-1:lo]` as a number. -/
theorem extract_toNat {m : Nat} (v : BitVec m) (lo n : Nat) :
    (v.extractLsb' lo n).toNat = v.toNat / 2 ^ lo % 2 ^ n := by
  rw [BitVec.extractLsb'_toNat, Nat.shiftRight_eq_div_pow]

/-- `a ++ b` as a number (R8). -/
theorem append_toNat {m n : Nat} (a : BitVec m) (b : BitVec n) :
    (a ++ b).toNat = a.toNat * 2 ^ n + b.toNat := by
  rw [BitVec.toNat_append, ← Nat.shiftLeft_add_eq_or_of_lt b.isLt, Nat.shiftLeft_eq]

/-- A field whose low `k` bits are 0, or-ed with one that fits in them, is their sum. -/
theorem or_toNat (x y : Field) (k a : Nat) (hx : x.toNat = a * 2 ^ k) (hy : y.toNat < 2 ^ k) :
    (x ||| y).toNat = x.toNat + y.toNat := by
  rw [BitVec.toNat_or, hx, ← Nat.shiftLeft_eq, Nat.shiftLeft_add_eq_or_of_lt hy]

@[simp] theorem wireWord_b0 (op : Byte) (b : Bytes3) : (wireWord op b).b0 = op := rfl
@[simp] theorem wireWord_tail (op : Byte) (b : Bytes3) : (wireWord op b).tail = b := rfl

end Sys2Proof
end

