-- ==== Sys2Proof/Laws/Loader.lean ====
section
/-! SUPPORT. Cutting an image into words and joining words into an image. -/

namespace Sys2Proof

theorem wordsImage_length (ws : List Bytes4) : (wordsImage ws).length = 4 * ws.length := by
  induction ws with
  | nil => rfl
  | cons w ws ih => simp only [wordsImage, List.length_cons, ih]; omega

/-- An image joined from words is cut into the same words. -/
theorem imageWords_wordsImage (ws : List Bytes4) : imageWords (wordsImage ws) = some ws := by
  induction ws with
  | nil => rfl
  | cons w ws ih => simp [wordsImage, imageWords, ih]

/-- An image that is cut is its words joined: no byte is added or lost. -/
theorem wordsImage_of_imageWords (image : List Byte) :
    ∀ ws, imageWords image = some ws → wordsImage ws = image := by
  induction image using imageWords.induct with
  | case1 => intro ws h; cases h; rfl
  | case2 b0 b1 b2 b3 rest ih =>
    intro ws h
    rw [imageWords, Option.map_eq_some_iff] at h
    obtain ⟨ws', hw, rfl⟩ := h
    simp [wordsImage, ih ws' hw]
  | case3 image h1 h2 =>
    intro ws h
    rw [imageWords] at h
    · cases h
    · exact h1
    · exact h2

end Sys2Proof
end

