-- ==== Sys2Proof/Laws/State.lean ====
section
/-! SUPPORT. One lemma per field per update of State, so that no proof unfolds a record update. -/

namespace Sys2Proof.Machine

variable (s : State) (r : Result Value) (c : Nat) (rest : List Event) (w : Bytes4) (reg : Registry)

@[simp] theorem deliver_reg : (deliver r s).reg = s.reg := rfl
@[simp] theorem deliver_pending : (deliver r s).pending = s.pending := rfl
@[simp] theorem deliver_active : (deliver r s).active = s.active := rfl
@[simp] theorem deliver_served : (deliver r s).served = s.served ++ [⟨s.active, r⟩] := rfl
@[simp] theorem deliver_halted : (deliver r s).halted = s.halted := rfl

@[simp] theorem haltCaller_reg : (haltCaller c s).reg = s.reg := rfl
@[simp] theorem haltCaller_pending :
    (haltCaller c s).pending = s.pending.filter fun e => e.caller != c := rfl
@[simp] theorem haltCaller_active : (haltCaller c s).active = s.active := rfl
@[simp] theorem haltCaller_served : (haltCaller c s).served = s.served := rfl
@[simp] theorem haltCaller_halted : (haltCaller c s).halted = s.halted ++ [c] := rfl

@[simp] theorem beginEvent_reg : (beginEvent c rest s).reg = s.reg := rfl
@[simp] theorem beginEvent_pending : (beginEvent c rest s).pending = rest := rfl
@[simp] theorem beginEvent_active : (beginEvent c rest s).active = c := rfl
@[simp] theorem beginEvent_served : (beginEvent c rest s).served = s.served := rfl
@[simp] theorem beginEvent_halted : (beginEvent c rest s).halted = s.halted := rfl

@[simp] theorem presentWord_reg : (presentWord w s).reg = s.reg := rfl
@[simp] theorem presentWord_pending :
    (presentWord w s).pending = .call s.active (.decode w) :: s.pending := rfl
@[simp] theorem presentWord_active : (presentWord w s).active = s.active := rfl
@[simp] theorem presentWord_served : (presentWord w s).served = s.served := rfl
@[simp] theorem presentWord_halted :
    (presentWord w s).halted = s.halted.filter fun c => c != s.active := rfl

@[simp] theorem resetWith_reg : (State.resetWith reg).reg = reg := rfl
@[simp] theorem resetWith_pending : (State.resetWith reg).pending = [] := rfl
@[simp] theorem resetWith_active : (State.resetWith reg).active = 0 := rfl
@[simp] theorem resetWith_served : (State.resetWith reg).served = [] := rfl
@[simp] theorem resetWith_halted : (State.resetWith reg).halted = [] := rfl

@[simp] theorem caller_call (r : Request) : (Event.call c r).caller = c := rfl
@[simp] theorem caller_load (image : List Byte) : (Event.load c image).caller = c := rfl

end Sys2Proof.Machine
end

