-- ==== Sys2Proof/Laws/Callers.lean ====
section
/-! SUPPORT. The small lemmas of Safety's definitions: what a caller has pending, what it gets alone, what it has received. -/

namespace Sys2Proof.Machine

variable (c d : Nat) (es es' : List Event) (reg : Registry)

@[simp] theorem requests_call (r : Request) : (Event.call c r).requests = [r] := rfl

@[simp] theorem requestsOf_nil : requestsOf c [] = [] := rfl

@[simp] theorem requestsOf_append : requestsOf c (es ++ es') = requestsOf c es ++ requestsOf c es' := by
  simp [requestsOf]

theorem requestsOf_cons (e : Event) :
    requestsOf c (e :: es) = if e.caller = c then e.requests ++ requestsOf c es else requestsOf c es := by
  by_cases h : e.caller = c <;> simp [requestsOf, h]

/-- A halted caller's events are off the queue. -/
@[simp] theorem requestsOf_filter_self : requestsOf c (es.filter fun e => e.caller != c) = [] := by
  simp [requestsOf, List.filter_filter]

/-- Taking one caller's events off the queue leaves every other caller's. -/
theorem requestsOf_filter_ne (h : c ≠ d) : requestsOf c (es.filter fun e => e.caller != d) = requestsOf c es := by
  rw [requestsOf, List.filter_filter]
  congr 2
  funext e
  by_cases he : e.caller = c <;> simp [he, h]

/-- An image's decodes, once cut, are what the image presented. -/
theorem requestsOf_decodes (ws : List Bytes4) :
    requestsOf c (ws.map fun w => .call d (.decode w)) = if d = c then ws.map .decode else [] := by
  induction ws with
  | nil => simp
  | cons w ws ih => by_cases h : d = c <;> simp_all [requestsOf_cons]

@[simp] theorem aloneResults_nil : aloneResults reg [] = [] := rfl

theorem aloneResults_ok {r : Request} {v : Value} (h : evalRequest reg r = some (.ok v)) (rs : List Request) :
    aloneResults reg (r :: rs) = .ok v :: aloneResults reg rs := by
  simp [aloneResults, h]

theorem aloneResults_err {r : Request} {e : CodecError} (h : evalRequest reg r = some (.err e)) (rs : List Request) :
    aloneResults reg (r :: rs) = [.err e] := by
  simp [aloneResults, h]

/-- What a caller has received after further results were handed over. -/
theorem resultsOf_of_served {s t : State} {l : List Served} (h : t.served = s.served ++ l) :
    t.resultsOf c = s.resultsOf c ++ (l.filter fun v => v.caller == c).map Served.result := by
  simp [State.resultsOf, h]

/-- An image that is cut has four bytes for each of its words. -/
theorem length_of_imageWords {image : List Byte} {ws : List Bytes4} (h : imageWords image = some ws) :
    image.length = 4 * ws.length := by
  rw [← wordsImage_of_imageWords image ws h, wordsImage_length]

/-- An image is cut when its length is a multiple of 4 (R35). -/
theorem imageWords_isSome (image : List Byte) (h : image.length % 4 = 0) : ∃ ws, imageWords image = some ws := by
  induction image using imageWords.induct with
  | case1 => exact ⟨[], rfl⟩
  | case2 b0 b1 b2 b3 rest ih =>
    obtain ⟨ws, hw⟩ := ih (by simp at h; omega)
    exact ⟨_, by rw [imageWords, hw]; rfl⟩
  | case3 image h1 h2 =>
    match image, h1, h2, h with
    | [], h1, _, _ => exact absurd rfl h1
    | [_], _, _, h | [_, _], _, _, h | [_, _, _], _, _, h => simp at h
    | b0 :: b1 :: b2 :: b3 :: rest, _, h2, _ => exact absurd rfl (h2 b0 b1 b2 b3 rest)

end Sys2Proof.Machine
end

