-- ==== Sys2Proof/Laws/Registry.lean ====
section
/-! SUPPORT. What a lookup in a registry can answer, and when an entry is a `TREG` row. -/

namespace Sys2Proof

theorem Registry.bytes_nodup (reg : Registry) : (reg.entries.map Entry.byte).Nodup := by
  have h := reg.wf
  simp only [Registry.check, Bool.and_eq_true, decide_eq_true_eq] at h
  exact h.1.1

theorem Registry.mnemonics_nodup (reg : Registry) : (reg.entries.map Entry.mnemonic).Nodup := by
  have h := reg.wf
  simp only [Registry.check, Bool.and_eq_true, decide_eq_true_eq] at h
  exact h.1.2

theorem Registry.length_le (reg : Registry) : reg.entries.length ≤ 256 := by
  have h := reg.wf
  simp only [Registry.check, Bool.and_eq_true, decide_eq_true_eq] at h
  exact h.2

/-- Two entries of a registry with one byte are one entry (R14 (a)). -/
theorem Registry.eq_of_byte (reg : Registry) {e e' : Entry} (h : e ∈ reg.entries)
    (h' : e' ∈ reg.entries) (hb : e.byte = e'.byte) : e = e' :=
  List.inj_on_of_nodup_map reg.bytes_nodup h h' hb

/-- A lookup answers `e` exactly when `e` is the entry with that byte. -/
theorem Registry.lookup_eq_some (reg : Registry) (b : Byte) (e : Entry) :
    reg.lookup b = some e ↔ e ∈ reg.entries ∧ e.byte = b := by
  constructor
  · intro h
    exact ⟨List.mem_of_find?_eq_some h, by simpa using List.find?_some h⟩
  · rintro ⟨hm, rfl⟩
    cases hf : reg.lookup e.byte with
    | none => simpa using List.find?_eq_none.1 hf e hm
    | some e' =>
      have hm' := List.mem_of_find?_eq_some hf
      have hb' : e'.byte = e.byte := by simpa using List.find?_some hf
      rw [reg.eq_of_byte hm' hm hb']

/-- A lookup answers nothing exactly when no entry has that byte. -/
theorem Registry.lookup_eq_none (reg : Registry) (b : Byte) :
    reg.lookup b = none ↔ ∀ e ∈ reg.entries, e.byte ≠ b := by
  simp [Registry.lookup]

theorem Registry.lookup_byte {reg : Registry} {b : Byte} {e : Entry} (h : reg.lookup b = some e) :
    e.byte = b := ((reg.lookup_eq_some b e).1 h).2

theorem Registry.lookup_mem {reg : Registry} {b : Byte} {e : Entry} (h : reg.lookup b = some e) :
    e ∈ reg.entries := ((reg.lookup_eq_some b e).1 h).1

theorem Registry.lookup_of_mem {reg : Registry} {e : Entry} (h : e ∈ reg.entries) :
    reg.lookup e.byte = some e := (reg.lookup_eq_some _ e).2 ⟨h, rfl⟩

theorem Entry.isRow_iff (e : Entry) (row : TestOpcode) :
    e.isRow row = true ↔
      e.byte = row.entry.byte ∧ e.shape = row.entry.shape ∧ e.mnemonic = row.entry.mnemonic := by
  simp [Entry.isRow, and_assoc]

/-- No two rows of `TREG` share a byte. -/
theorem TestOpcode.eq_of_byte {r r' : TestOpcode} (h : r.entry.byte = r'.entry.byte) : r = r' := by
  revert h
  cases r <;> cases r' <;> decide

theorem TestOpcode.mem_all (r : TestOpcode) : r ∈ TestOpcode.all := by
  cases r <;> decide

/-- An entry's row is the one its byte, shape and mnemonic agree with. -/
theorem Entry.testRow_eq_some (e : Entry) (row : TestOpcode) :
    e.testRow = some row ↔ e.isRow row = true := by
  constructor
  · intro h
    simpa using List.find?_some h
  · intro h
    cases hf : e.testRow with
    | none => exact absurd h (by simpa using List.find?_eq_none.1 hf row row.mem_all)
    | some row' =>
      have h' : e.isRow row' = true := by simpa using List.find?_some hf
      rw [Entry.isRow_iff] at h h'
      rw [TestOpcode.eq_of_byte (h'.1.symm.trans h.1)]

theorem Registry.hasRow_iff (reg : Registry) (row : TestOpcode) :
    reg.hasRow row = true ↔ ∃ e, reg.lookup row.entry.byte = some e ∧ e.isRow row = true := by
  simp only [Registry.hasRow]
  split <;> simp_all

theorem Registry.hasOther_iff (reg : Registry) (b : Byte) (S : Shape) :
    reg.hasOther b S = true ↔ ∃ e, reg.lookup b = some e ∧ e.shape = S ∧ e.testRow = none := by
  simp only [Registry.hasOther]
  split <;> simp_all

end Sys2Proof
end

