-- ==== Sys2Proof/Laws/Ops.lean ====
section
/-! SUPPORT. For each shared operation, what it can do, said once. -/

namespace Sys2Proof.Machine

@[simp] theorem respond_ok (v : Value) (s : State) : respond (.ok v) s = .next (deliver (.ok v) s) := rfl

@[simp] theorem respond_err (err : CodecError) (s : State) :
    respond (.err err) s = .next (haltCaller s.active (deliver (.err err) s)) := rfl

theorem raiseInvalidOpcode_eq (s : State) :
    raiseInvalidOpcode s = .next (haltCaller s.active (deliver (.err .invalidOpcode) s)) := rfl

/-- A result always reaches its caller: `respond` answers a next state. -/
theorem respond_next (r : Result Value) (s : State) :
    ∃ t, respond r s = .next t ∧ t.reg = s.reg ∧ t.active = s.active ∧
      t.served = s.served ++ [⟨s.active, r⟩] := by
  cases r with
  | ok v => exact ⟨_, rfl, rfl, rfl, rfl⟩
  | err e => cases e; exact ⟨_, rfl, rfl, rfl, rfl⟩

/-- The instruction of a registered entry and a tuple of its shape. -/
theorem instructionOf_of_mem {reg : Registry} {b : Byte} {m d : String} {S : Shape} (t : Operands S)
    (h : (⟨b, m, S, d⟩ : Entry) ∈ reg.entries) : instructionOf reg b t = some ⟨⟨b, m, S, d⟩, t⟩ := by
  simp [instructionOf, Registry.lookup_of_mem h]

theorem respondRow_of_mem {s : State} {b : Byte} {m d : String} {S : Shape} (t : Operands S)
    (h : (⟨b, m, S, d⟩ : Entry) ∈ s.reg.entries) :
    respondRow b t s = .next (deliver (.ok (.instruction ⟨⟨b, m, S, d⟩, t⟩)) s) := by
  simp [respondRow, instructionOf_of_mem t h]

/-- A row's answer: an instruction handed to the caller, or the refusal of a row that is not the registry's. -/
theorem respondRow_cases (b : Byte) {S : Shape} (t : Operands S) (s : State) :
    (∃ i, respondRow b t s = .next (deliver (.ok (.instruction i)) s)) ∨
      respondRow b t s = .refused .notInRegistry := by
  unfold respondRow
  split
  · exact .inl ⟨_, rfl⟩
  · exact .inr rfl

theorem respondTestRow_cases (row : TestOpcode) (t : Operands row.entry.shape) (s : State) :
    (∃ i, respondTestRow row t s = .next (deliver (.ok (.instruction i)) s)) ∨
      respondTestRow row t s = .refused .notInRegistry := by
  unfold respondTestRow
  split
  · exact respondRow_cases _ t s
  · exact .inr rfl

theorem respondTestRow_of_mem {s : State} (row : TestOpcode) (t : Operands row.entry.shape) {d : String}
    (h : (⟨row.entry.byte, row.entry.mnemonic, row.entry.shape, d⟩ : Entry) ∈ s.reg.entries) :
    respondTestRow row t s = .next (deliver (.ok (.instruction
      ⟨⟨row.entry.byte, row.entry.mnemonic, row.entry.shape, d⟩, t⟩)) s) := by
  have hr : s.reg.hasRow row = true :=
    (s.reg.hasRow_iff row).2 ⟨⟨row.entry.byte, row.entry.mnemonic, row.entry.shape, d⟩,
      Registry.lookup_of_mem h, by simp [Entry.isRow]⟩
  rw [respondTestRow, if_pos hr]
  exact respondRow_of_mem t h

theorem execUnregistered_cases (op : Byte) (f : Field) (s : State) :
    execUnregistered op f s = raiseInvalidOpcode s ∨ execUnregistered op f s = .refused .notInRegistry := by
  unfold execUnregistered
  split
  · exact .inl rfl
  · exact .inr rfl

/-- Everything a row can do: hand over an instruction, be refused, or, for the unregistered row, return the error. -/
theorem exec_cases (i : Instr) (s : State) :
    (∃ j, exec i s = .next (deliver (.ok (.instruction j)) s)) ∨ exec i s = .refused .notInRegistry ∨
      ∃ op f, i = .unregistered op f ∧ exec i s = raiseInvalidOpcode s := by
  cases i
  case unregistered op f =>
    rcases execUnregistered_cases op f s with h | h
    · exact .inr (.inr ⟨op, f, rfl, h⟩)
    · exact .inr (.inl h)
  all_goals first
    | exact (respondRow_cases _ _ s).imp id .inl
    | exact (respondTestRow_cases _ _ s).imp id .inl

theorem serveRequest_cases (r : Request) (s : State) :
    (r.of s.reg ∧ ∃ res, evalRequest s.reg r = some res ∧ serveRequest r s = respond res s) ∨
    (r.of s.reg ∧ evalRequest s.reg r = none ∧ serveRequest r s = .refused .noSuchAccessor) ∨
      (¬ r.of s.reg ∧ serveRequest r s = .refused .notInRegistry) := by
  by_cases h : r.of s.reg
  · rw [serveRequest, if_pos h]
    cases hv : evalRequest s.reg r with
    | some res => exact .inl ⟨h, res, rfl, rfl⟩
    | none => exact .inr (.inl ⟨h, rfl, rfl⟩)
  · rw [serveRequest, if_neg h]
    exact .inr (.inr ⟨h, rfl⟩)

theorem loadImage_cases (c : Nat) (image : List Byte) (s : State) :
    (∃ ws, imageWords image = some ws ∧ loadImage c image s = .next
      { s with pending := ws.map (fun w => .call c (.decode w)) ++ s.pending }) ∨
    (imageWords image = none ∧ loadImage c image s = .refused .partialImage) := by
  unfold loadImage
  cases h : imageWords image <;> simp

/-- Everything a step that answers a next state can have done. -/
theorem stepEvent_next {s t : State} (h : stepEvent s = .next t) :
    (s.pending = [] ∧ t = s) ∨
      ∃ e rest, s.pending = e :: rest ∧ e.caller ∉ s.halted ∧
        runEvent e (beginEvent e.caller rest s) = .next t := by
  unfold stepEvent at h
  split at h
  · next hp => cases h; exact .inl ⟨hp, rfl⟩
  · next e rest hp =>
    split at h
    · cases h
    · next hc => exact .inr ⟨e, rest, hp, hc, h⟩

end Sys2Proof.Machine
end

