-- ==== Sys2Proof/Laws/PerInstr.lean ====
section
/-! SUPPORT. One lemma per row of the opcode table, for statements about a row as syntax. -/

namespace Sys2Proof

/-- The opcode byte of a row: w[31:24] of its pattern. -/
def Instr.byte : Instr → Byte
  | .anyNone op => op
  | .anyR1 op _ => op
  | .anyR2 op _ _ => op
  | .anyR3 op _ _ _ => op
  | .anyR4 op _ _ _ _ => op
  | .anyR2I12 op _ _ _ => op
  | .anyR1I18 op _ _ => op
  | .anyI24 op _ => op
  | .unregistered op _ => op
  | .tnone => 0x00#8
  | .tr1 _ => 0x01#8
  | .tr2 _ _ => 0x02#8
  | .tr3 _ _ _ => 0x03#8
  | .tr4 _ _ _ _ => 0x04#8
  | .tr2i12 _ _ _ => 0x05#8
  | .tr1i18 _ _ => 0x06#8
  | .ti24 _ => 0x07#8
  | .tr3b _ _ _ => 0x13#8

namespace Laws.OpcodeByte

/-- The first byte of a row's word is the row's opcode byte (R43). -/
def Statement (i : Instr) : Prop := (encodeInstr i).b0 = i.byte

/-- A row whose pattern is its opcode byte over 24 further bits. -/
theorem of_pattern {i : Instr} (f : Nat) (hf : f < 2 ^ 24)
    (h : (instrWord i).toNat = i.byte.toNat * 2 ^ 24 + f) : Statement i := by
  have hb := i.byte.isLt
  apply BitVec.eq_of_toNat_eq
  show ((instrWord i).extractLsb' 24 8).toNat = _
  rw [extract_toNat, h]
  omega

theorem anyNone (op : Byte) : Statement (.anyNone op) :=
  of_pattern 0 (by omega)
    (by simp only [instrWord, append_toNat, Instr.byte, BitVec.toNat_ofNat])

theorem anyR1 (op : Byte) (a : RegId) : Statement (.anyR1 op a) :=
  of_pattern (a.bits.toNat * 2 ^ 18) (by have := a.bits.isLt; omega)
    (by simp only [instrWord, append_toNat, Instr.byte, BitVec.toNat_ofNat]; omega)

theorem anyR2 (op : Byte) (a b : RegId) : Statement (.anyR2 op a b) :=
  of_pattern (a.bits.toNat * 2 ^ 18 + b.bits.toNat * 2 ^ 12)
    (by have := a.bits.isLt; have := b.bits.isLt; omega)
    (by simp only [instrWord, append_toNat, Instr.byte, BitVec.toNat_ofNat]; omega)

theorem anyR3 (op : Byte) (a b c : RegId) : Statement (.anyR3 op a b c) :=
  of_pattern (a.bits.toNat * 2 ^ 18 + b.bits.toNat * 2 ^ 12 + c.bits.toNat * 2 ^ 6)
    (by have := a.bits.isLt; have := b.bits.isLt; have := c.bits.isLt; omega)
    (by simp only [instrWord, append_toNat, Instr.byte, BitVec.toNat_ofNat]; omega)

theorem anyR4 (op : Byte) (a b c d : RegId) : Statement (.anyR4 op a b c d) :=
  of_pattern (a.bits.toNat * 2 ^ 18 + b.bits.toNat * 2 ^ 12 + c.bits.toNat * 2 ^ 6 + d.bits.toNat)
    (by have := a.bits.isLt; have := b.bits.isLt; have := c.bits.isLt; have := d.bits.isLt; omega)
    (by simp only [instrWord, append_toNat, Instr.byte]; omega)

theorem anyR2I12 (op : Byte) (a b : RegId) (i : Imm12) : Statement (.anyR2I12 op a b i) :=
  of_pattern (a.bits.toNat * 2 ^ 18 + b.bits.toNat * 2 ^ 12 + i.bits.toNat)
    (by have := a.bits.isLt; have := b.bits.isLt; have := i.bits.isLt; omega)
    (by simp only [instrWord, append_toNat, Instr.byte]; omega)

theorem anyR1I18 (op : Byte) (a : RegId) (i : Imm18) : Statement (.anyR1I18 op a i) :=
  of_pattern (a.bits.toNat * 2 ^ 18 + i.bits.toNat)
    (by have := a.bits.isLt; have := i.bits.isLt; omega)
    (by simp only [instrWord, append_toNat, Instr.byte]; omega)

theorem anyI24 (op : Byte) (i : Imm24) : Statement (.anyI24 op i) :=
  of_pattern i.bits.toNat (by have := i.bits.isLt; omega)
    (by simp only [instrWord, append_toNat, Instr.byte])

theorem unregistered (op : Byte) (ignored : Field) : Statement (.unregistered op ignored) :=
  of_pattern ignored.toNat (by have := ignored.isLt; omega)
    (by simp only [instrWord, append_toNat, Instr.byte])

theorem tnone : Statement (.tnone) :=
  of_pattern 0 (by omega)
    (by simp only [instrWord, append_toNat, Instr.byte, BitVec.toNat_ofNat])

theorem tr1 (a : RegId) : Statement (.tr1 a) :=
  of_pattern (a.bits.toNat * 2 ^ 18) (by have := a.bits.isLt; omega)
    (by simp only [instrWord, append_toNat, Instr.byte, BitVec.toNat_ofNat]; omega)

theorem tr2 (a b : RegId) : Statement (.tr2 a b) :=
  of_pattern (a.bits.toNat * 2 ^ 18 + b.bits.toNat * 2 ^ 12)
    (by have := a.bits.isLt; have := b.bits.isLt; omega)
    (by simp only [instrWord, append_toNat, Instr.byte, BitVec.toNat_ofNat]; omega)

theorem tr3 (a b c : RegId) : Statement (.tr3 a b c) :=
  of_pattern (a.bits.toNat * 2 ^ 18 + b.bits.toNat * 2 ^ 12 + c.bits.toNat * 2 ^ 6)
    (by have := a.bits.isLt; have := b.bits.isLt; have := c.bits.isLt; omega)
    (by simp only [instrWord, append_toNat, Instr.byte, BitVec.toNat_ofNat]; omega)

theorem tr4 (a b c d : RegId) : Statement (.tr4 a b c d) :=
  of_pattern (a.bits.toNat * 2 ^ 18 + b.bits.toNat * 2 ^ 12 + c.bits.toNat * 2 ^ 6 + d.bits.toNat)
    (by have := a.bits.isLt; have := b.bits.isLt; have := c.bits.isLt; have := d.bits.isLt; omega)
    (by simp only [instrWord, append_toNat, Instr.byte, BitVec.toNat_ofNat]; omega)

theorem tr2i12 (a b : RegId) (i : Imm12) : Statement (.tr2i12 a b i) :=
  of_pattern (a.bits.toNat * 2 ^ 18 + b.bits.toNat * 2 ^ 12 + i.bits.toNat)
    (by have := a.bits.isLt; have := b.bits.isLt; have := i.bits.isLt; omega)
    (by simp only [instrWord, append_toNat, Instr.byte, BitVec.toNat_ofNat]; omega)

theorem tr1i18 (a : RegId) (i : Imm18) : Statement (.tr1i18 a i) :=
  of_pattern (a.bits.toNat * 2 ^ 18 + i.bits.toNat)
    (by have := a.bits.isLt; have := i.bits.isLt; omega)
    (by simp only [instrWord, append_toNat, Instr.byte, BitVec.toNat_ofNat]; omega)

theorem ti24 (i : Imm24) : Statement (.ti24 i) :=
  of_pattern i.bits.toNat (by have := i.bits.isLt; omega)
    (by simp only [instrWord, append_toNat, Instr.byte, BitVec.toNat_ofNat])

theorem tr3b (a b c : RegId) : Statement (.tr3b a b c) :=
  of_pattern (a.bits.toNat * 2 ^ 18 + b.bits.toNat * 2 ^ 12 + c.bits.toNat * 2 ^ 6)
    (by have := a.bits.isLt; have := b.bits.isLt; have := c.bits.isLt; omega)
    (by simp only [instrWord, append_toNat, Instr.byte, BitVec.toNat_ofNat]; omega)

end Laws.OpcodeByte
end Sys2Proof
end

