-- ==== Sys2Proof/Tests/Slice0.lean ====
section
/-! SUPPORT. The model's own tests. Expected values come from the spec: the bit patterns of 30_encoding.md R46 to R53, the
vectors V1 to V8 and the programs P1 to P5 of 95_test_vectors.md. -/

namespace Sys2Proof.Tests

open Sys2Proof.Machine

/-- A registry with one opcode of each shape, none of them a `TREG` row. -/
def otherReg : Registry :=
  ⟨[⟨0x20#8, "A", .none, "a"⟩, ⟨0x21#8, "B", .r1, ""⟩, ⟨0x22#8, "C", .r2, ""⟩, ⟨0x23#8, "D", .r3, ""⟩] ++
    [⟨0x24#8, "E", .r4, ""⟩, ⟨0x25#8, "F", .r2i12, ""⟩, ⟨0x26#8, "G", .r1i18, ""⟩, ⟨0x01#8, "H", .i24, ""⟩],
    by decide⟩

/-- A registry with no entry (R14 (d), V5). -/
def emptyReg : Registry := ⟨[], by decide⟩

abbrev r (n : Nat) : RegId := RegId.new n

/-- A state with the given registry and pending events, callers 5 halted. -/
def at_ (reg : Registry) (es : List Event) : State := ⟨reg, es, 2, [], [5]⟩

def servedBy (o : Host.Outcome State Fault Refusal) : List Served :=
  match o with
  | .next t => t.served
  | _ => []

def refusedAs (o : Host.Outcome State Fault Refusal) : Option Refusal :=
  match o with
  | .refused x => some x
  | _ => none

def nextState (o : Host.Outcome State Fault Refusal) : Option State :=
  match o with
  | .next t => some t
  | _ => none

/-! ### The words of every row, bit by bit: `oooooooo` and then the pattern of the row's shape -/

theorem test_word_any_none : decodeInstr otherReg (bytes4 0b00100000_111111111111111111111111#32) =
    .anyNone 0x20 := by decide
theorem test_word_any_r1 : decodeInstr otherReg (bytes4 0b00100001_000101_111111111111111111#32) =
    .anyR1 0x21 (r 5) := by decide
theorem test_word_any_r2 : decodeInstr otherReg (bytes4 0b00100010_000001_000010_101010111100#32) =
    .anyR2 0x22 (r 1) (r 2) := by decide
theorem test_word_any_r3 : decodeInstr otherReg (bytes4 0b00100011_000001_000010_000011_111111#32) =
    .anyR3 0x23 (r 1) (r 2) (r 3) := by decide
theorem test_word_any_r4 : decodeInstr otherReg (bytes4 0b00100100_000001_000010_000011_000100#32) =
    .anyR4 0x24 (r 1) (r 2) (r 3) (r 4) := by decide
theorem test_word_any_r2i12 : decodeInstr otherReg (bytes4 0b00100101_000011_000111_001111101000#32) =
    .anyR2I12 0x25 (r 3) (r 7) (Imm12.new 1000) := by decide
theorem test_word_any_r1i18 : decodeInstr otherReg (bytes4 0b00100110_001010_011110001001000000#32) =
    .anyR1I18 0x26 (r 10) (Imm18.new 123456) := by decide
/-- The byte of `TR1` under a registry that gives it another shape is no `TREG` row. -/
theorem test_word_any_i24 : decodeInstr otherReg (bytes4 0b00000001_000100100011010001010110#32) =
    .anyI24 0x01 (Imm24.new 0x123456) := by decide
theorem test_word_unregistered : decodeInstr Config.treg (bytes4 0b00001000_000000010000001000000011#32) =
    .unregistered 0x08 0x010203 := by decide
theorem test_word_tnone : decodeInstr Config.treg (bytes4 0b00000000_000100100011010001010110#32) =
    .tnone := by decide
theorem test_word_tr1 : decodeInstr Config.treg (bytes4 0b00000001_111111_000000000000000001#32) =
    .tr1 (r 63) := by decide
theorem test_word_tr2 : decodeInstr Config.treg (bytes4 0b00000010_000001_000010_101010111100#32) =
    .tr2 (r 1) (r 2) := by decide
theorem test_word_tr3 : decodeInstr Config.treg (bytes4 0b00000011_000001_000001_010011_000000#32) =
    .tr3 (r 1) (r 1) (r 19) := by decide
theorem test_word_tr4 : decodeInstr Config.treg (bytes4 0b00000100_000001_000010_000011_000100#32) =
    .tr4 (r 1) (r 2) (r 3) (r 4) := by decide
theorem test_word_tr2i12 : decodeInstr Config.treg (bytes4 0b00000101_000011_000111_001111101000#32) =
    .tr2i12 (r 3) (r 7) (Imm12.new 1000) := by decide
theorem test_word_tr1i18 : decodeInstr Config.treg (bytes4 0b00000110_000001_111111111111111111#32) =
    .tr1i18 (r 1) (Imm18.new 262143) := by decide
theorem test_word_ti24 : decodeInstr Config.treg (bytes4 0b00000111_111111111111111111111110#32) =
    .ti24 (Imm24.new 16777214) := by decide
theorem test_word_tr3b : decodeInstr Config.treg (bytes4 0b00010011_000001_000010_000011_000000#32) =
    .tr3b (r 1) (r 2) (r 3) := by decide

/-- The table word of the host's interface, V6. -/
theorem test_table_word : decodeTableWord 32 0x050C73E8 =
    some (.tr2i12 (r 3) (r 7) (Imm12.new 1000)) := by decide
/-- The encoder, V7. -/
theorem test_encode_tr4 : encodeInstr (.tr4 (r 1) (r 2) (r 3) (r 4)) = ⟨0x04, 0x04, 0x20, 0xC4⟩ := by decide
theorem test_encode_any_r1i18 : encodeInstr (.anyR1I18 0x26 (r 10) (Imm18.new 123456)) =
    ⟨0x26, 0x29, 0xE2, 0x40⟩ := by decide

/-! ### Well-formedness refuses an ill-formed row, and each check of the registry an ill-formed list -/

theorem test_any_r1_of_other_shape : (Instr.anyR1 0x22 (r 1)).wellFormed otherReg = false := by decide
theorem test_any_r1_unregistered : (Instr.anyR1 0x30 (r 1)).wellFormed otherReg = false := by decide
theorem test_any_r1_of_test_row : (Instr.anyR1 0x01 (r 1)).wellFormed Config.treg = false := by decide
theorem test_unregistered_registered : (Instr.unregistered 0x20 0).wellFormed otherReg = false := by decide
theorem test_tr1_of_other_entry : (Instr.tr1 (r 1)).wellFormed otherReg = false := by decide
theorem test_tr2_unregistered : (Instr.tr2 (r 1) (r 2)).wellFormed otherReg = false := by decide
theorem test_registry_duplicate_byte : (Registry.build [⟨1, "X", .r1, ""⟩, ⟨1, "Y", .r1, ""⟩]).isNone = true := by
  decide
theorem test_registry_duplicate_mnemonic :
    (Registry.build [⟨1, "X", .r1, ""⟩, ⟨2, "X", .r2, ""⟩]).isNone = true := by decide

/-! ### One step from reset (V6) -/

/-- `(00 00 00 00)` is `TNONE` with no operands. -/
theorem test_step_tnone : servedBy (step (State.reset.withFetchWord 32 0x00000000)) =
    [⟨0, .ok (.instruction tnone)⟩] := by decide
theorem test_step_tr1 : servedBy (step (State.reset.withFetchWord 32 0x01FC0001)) =
    [⟨0, .ok (.instruction (tr1 (r 63)))⟩] := by decide
theorem test_step_tr2 : servedBy (step (State.reset.withFetchWord 32 0x02042ABC)) =
    [⟨0, .ok (.instruction (tr2 (r 1) (r 2)))⟩] := by decide
theorem test_step_tr3 : servedBy (step (State.reset.withFetchWord 32 0x030414C0)) =
    [⟨0, .ok (.instruction (tr3 (r 1) (r 1) (r 19)))⟩] := by decide
theorem test_step_tr4 : servedBy (step (State.reset.withFetchWord 32 0x040420C4)) =
    [⟨0, .ok (.instruction (tr4 (r 1) (r 2) (r 3) (r 4)))⟩] := by decide
theorem test_step_tr2i12 : servedBy (step (State.reset.withFetchWord 32 0x050C73E8)) =
    [⟨0, .ok (.instruction (tr2i12 (r 3) (r 7) (Imm12.new 1000)))⟩] := by decide
theorem test_step_tr1i18 : servedBy (step (State.reset.withFetchWord 32 0x0629E240)) =
    [⟨0, .ok (.instruction (tr1i18 (r 10) (Imm18.new 123456)))⟩] := by decide
theorem test_step_ti24 : servedBy (step (State.reset.withFetchWord 32 0x07123456)) =
    [⟨0, .ok (.instruction (ti24 (Imm24.new 0x123456)))⟩] := by decide
theorem test_step_tr3b : servedBy (step (State.reset.withFetchWord 32 0x130420C0)) =
    [⟨0, .ok (.instruction (tr3b (r 1) (r 2) (r 3)))⟩] := by decide
/-- P3, step 2: the error is returned, the caller halts and its next word is never passed to the block. -/
theorem test_step_unregistered :
    (nextState (step (at_ Config.treg [.call 1 (.decode ⟨0xFF, 1, 2, 3⟩),
      .call 1 (.decode ⟨7, 0xFF, 0xFF, 0xFF⟩), .call 3 (.decode ⟨7, 0, 0, 0⟩)]))) =
    some ⟨Config.treg, [.call 3 (.decode ⟨7, 0, 0, 0⟩)], 1, [⟨1, .err .invalidOpcode⟩], [5, 1]⟩ := by decide
/-- V5: with an empty registry every byte fails. -/
theorem test_step_empty_registry : servedBy (step (at_ emptyReg [.call 1 (.decode ⟨0, 0, 0, 0⟩)])) =
    [⟨1, .err .invalidOpcode⟩] := by decide
/-- Rows of a registry that is not `TREG`. -/
theorem test_step_any_r4 : servedBy (step (at_ otherReg [.call 1 (.decode ⟨0x24, 0x04, 0x20, 0xC4⟩)])) =
    [⟨1, .ok (.instruction ⟨⟨0x24, "E", .r4, ""⟩, .r4 (r 1) (r 2) (r 3) (r 4)⟩)⟩] := by decide
theorem test_step_any_none : servedBy (step (at_ otherReg [.call 1 (.decode ⟨0x20, 9, 9, 9⟩)])) =
    [⟨1, .ok (.instruction ⟨⟨0x20, "A", .none, "a"⟩, .none⟩)⟩] := by decide

/-! ### The other operations (V1 to V5, V7) and the loader (P1, P5) -/

theorem test_regid_masks : [63, 64, 70, 0x7F, 0x100].map (fun n => (RegId.new n).value) = [63, 0, 6, 63, 0] := by
  decide
theorem test_imm12_masks : [4095, 4096, 0x1234, 0xFFFF].map (fun n => (Imm12.new n).value) =
    [4095, 0, 0x234, 4095] := by decide
theorem test_imm18_masks : [0x3FFFF, 0x40000, 0xFFFFF].map (fun n => (Imm18.new n).value) =
    [262143, 0, 0x3FFFF] := by decide
theorem test_imm24_masks : [0xFFFFFF, 0x1000000, 0x1FFFFFF].map (fun n => (Imm24.new n).value) =
    [16777215, 0, 0xFFFFFF] := by decide
theorem test_pack_r3 : pack (.r3 (r 1) (r 1) (r 19)) = 0x0414C0#24 := by decide
theorem test_pack_r2i12 : pack (.r2i12 (r 3) (r 7) (Imm12.new 1000)) = 0x0C73E8#24 := by decide
theorem test_pack_r1i18 : pack (.r1i18 (r 10) (Imm18.new 123456)) = 0x29E240#24 := by decide
theorem test_unpack_r3 : unpack .r3 0x04183F#24 = .r3 (r 1) (r 1) (r 32) := by decide
theorem test_unpack_r2 : unpack .r2 0x042ABC#24 = .r2 (r 1) (r 2) := by decide
theorem test_to_u32 :
    (Op.new TestOpcode.tr2i12.entry (.r2i12 (r 3) (r 7) (Imm12.new 1000))).toU32 = 0x050C73E8#32 := by decide
theorem test_from_operand_bytes : Op.fromOperandBytes TestOpcode.tr2.entry ⟨0x04, 0x2A, 0xBC⟩ =
    Op.new TestOpcode.tr2.entry (.r2 (r 1) (r 2)) := by decide
/-- V4: `Op_0x03.new(1, 2, 3).immediate()` is refused. -/
theorem test_absent_accessor : refusedAs (step (at_ Config.treg [.call 1
    (.opImmediate TestOpcode.tr3.entry ⟨.r3 (r 1) (r 2) (r 3)⟩)])) = some .noSuchAccessor := by decide
theorem test_foreign_opcode : refusedAs (step (at_ otherReg [.call 1 (.toByte TestOpcode.tr3.entry)])) =
    some .notInRegistry := by decide
/-- V5: nine bytes are registered in `TREG`, all of them below 0x14. -/
theorem test_registered_count : ((List.range 0x20).countP fun n =>
    statusOk (Opcode.fromByte Config.treg (BitVec.ofNat 8 n))) = 9 := by decide
theorem test_constructor_name : constructorName TestOpcode.tr2i12.entry = "tr2i12" := by decide
theorem test_canonicalize : encodeU32 (tr2 (r 1) (r 2)) = 0x02042000#32 := by decide
/-- P1: the loader's split. -/
theorem test_load_image : (nextState (step (at_ Config.treg
    [.load 1 [0x03, 0x04, 0x14, 0xC0, 0x05, 0x0C, 0x73, 0xE8]]))).map State.pending =
    some [.call 1 (.decode ⟨0x03, 0x04, 0x14, 0xC0⟩), .call 1 (.decode ⟨0x05, 0x0C, 0x73, 0xE8⟩)] := by decide
/-- P5: an image with trailing bytes is refused. -/
theorem test_load_partial : refusedAs (step (at_ Config.treg [.load 1 [0x03, 0x04, 0x20, 0xC0, 0x00, 0x00]])) =
    some .partialImage := by decide

/-! ### A witness for the hypotheses of every statement that has some -/

def t3 : Entry := TestOpcode.tr3.entry
def t3i : Instruction := tr3 (r 1) (r 2) (r 3)

theorem witness_PrimitiveAccessorsReadBack : 63 ≤ 63 ∧ 4095 ≤ 4095 ∧ 262143 ≤ 262143 ∧ 16777215 ≤ 16777215 := by
  decide
theorem witness_WordViewsAreBigEndian : 23 < 24 := by decide
/-- W3's field isolation pair, which differs in `registerB` only. -/
theorem witness_PackedFieldsAreIsolated :
    let t : Operands .r2i12 := .r2i12 (r 3) (r 7) (Imm12.new 1000)
    let t' : Operands .r2i12 := .r2i12 (r 3) (r 8) (Imm12.new 1000)
    t.field .registerB ≠ t'.field .registerB ∧ t.field .registerA = t'.field .registerA ∧
      t.field .registerC = t'.field .registerC ∧ t.field .registerD = t'.field .registerD ∧
      t.field .immediate = t'.field .immediate := by decide
theorem witness_entry_of_word : t3 ∈ Config.treg.entries ∧ t3.byte = (⟨0x03, 0x04, 0x20, 0xFF⟩ : Bytes4).b0 := by
  decide
/-- A canonical and a non-canonical word with the same registered opcode byte. -/
theorem witness_EncodeAfterDecodeCanonicalizes :
    be24 ⟨0x04, 0x20, 0xC0⟩ &&& t3.shape.reservedMask = 0#24 ∧
      be24 ⟨0x04, 0x20, 0xFF⟩ &&& t3.shape.reservedMask ≠ 0#24 := by decide
theorem witness_unregistered_byte : ∀ e ∈ Config.treg.entries, e.byte ≠ 0xFF#8 := by decide
theorem witness_PerOpcodeWireForms : be24 ⟨0x04, 0x20, 0xC0⟩ &&& t3.shape.canonicalMask =
    be24 ⟨0x04, 0x20, 0xFF⟩ &&& t3.shape.canonicalMask := by decide
theorem witness_FromByteOkIffRegistered : Opcode.fromByte Config.treg 0x03 = .ok t3 ∧
    Opcode.fromByte Config.treg 0xFF = .err .invalidOpcode := by decide
theorem witness_OnlyWellFormedRegistriesAreBuilt :
    (Registry.build Config.treg.entries).isSome = true := by decide
theorem witness_RegistryOrderHasNoEffect :
    ∃ reg : Registry, reg ≠ otherReg ∧ otherReg.entries.Perm reg.entries :=
  ⟨⟨otherReg.entries.reverse, by decide⟩, by decide, (List.reverse_perm _).symm⟩
theorem witness_RegistryDocsHaveNoEffect :
    ∃ reg : Registry, reg ≠ emptyReg ∧ reg ≠ Config.treg ∧
      Config.treg.entries.map (fun e => (e.byte, e.mnemonic, e.shape)) =
        reg.entries.map (fun e => (e.byte, e.mnemonic, e.shape)) :=
  ⟨⟨Config.treg.entries.map fun e => ⟨e.byte, e.mnemonic, e.shape, "documented"⟩, by decide⟩, by decide, by decide,
    by decide⟩
theorem witness_instruction_of_registry : t3i.of Config.treg ∧ (tr1 (r 63)).of Config.treg ∧
    decode Config.treg (encode t3i) = .ok t3i := by decide
theorem witness_canonical_word : Config.treg.canonical ⟨0x03, 0x04, 0x20, 0xC0⟩ := ⟨t3, by decide, by decide⟩
theorem witness_under_full_shape : ∃ e ∈ Config.treg.entries, 0 < e.shape.reservedBits := ⟨t3, by decide, by decide⟩
theorem witness_EqualityAndHashingAreStructural :
    (RegId.new 70).value = (RegId.new 6).value ∧ encode t3i = encode (tr3 (r 65) (r 66) (r 67)) := by decide
theorem witness_AnyRegisterRowsAnswer :
    (⟨0x20#8, "A", .none, "a"⟩ : Entry) ∈ otherReg.entries ∧ (⟨0x21#8, "B", .r1, ""⟩ : Entry) ∈ otherReg.entries ∧
      (⟨0x22#8, "C", .r2, ""⟩ : Entry) ∈ otherReg.entries ∧ (⟨0x23#8, "D", .r3, ""⟩ : Entry) ∈ otherReg.entries ∧
      (⟨0x24#8, "E", .r4, ""⟩ : Entry) ∈ otherReg.entries := by decide
theorem witness_AnyImmediateRowsAnswer :
    (⟨0x25#8, "F", .r2i12, ""⟩ : Entry) ∈ otherReg.entries ∧
      (⟨0x26#8, "G", .r1i18, ""⟩ : Entry) ∈ otherReg.entries ∧
      (⟨0x01#8, "H", .i24, ""⟩ : Entry) ∈ otherReg.entries := by decide
theorem witness_TestRegisterRowsAnswer :
    (⟨0x00#8, "TNONE", .none, ""⟩ : Entry) ∈ State.reset.reg.entries ∧
      (⟨0x01#8, "TR1", .r1, ""⟩ : Entry) ∈ State.reset.reg.entries ∧
      (⟨0x02#8, "TR2", .r2, ""⟩ : Entry) ∈ State.reset.reg.entries ∧
      (⟨0x03#8, "TR3", .r3, ""⟩ : Entry) ∈ State.reset.reg.entries ∧
      (⟨0x04#8, "TR4", .r4, ""⟩ : Entry) ∈ State.reset.reg.entries ∧
      (⟨0x13#8, "TR3B", .r3, ""⟩ : Entry) ∈ State.reset.reg.entries := by decide
theorem witness_TestImmediateRowsAnswer :
    (⟨0x05#8, "TR2I12", .r2i12, ""⟩ : Entry) ∈ State.reset.reg.entries ∧
      (⟨0x06#8, "TR1I18", .r1i18, ""⟩ : Entry) ∈ State.reset.reg.entries ∧
      (⟨0x07#8, "TI24", .i24, ""⟩ : Entry) ∈ State.reset.reg.entries := by decide
/-- Rows and steps that answer a next state, for the statements about one. -/
theorem witness_RowsChangeOnlyTheirCallersResult :
    (nextState (exec (.tr1 (r 1)) State.reset)).isSome = true ∧
      (nextState (exec (.unregistered 0xFF 0) State.reset)).isSome = true := by decide
theorem witness_RowsRunWhereWellFormed : (Instr.tr3 (r 1) (r 2) (r 3)).wellFormed Config.treg = true ∧
    (Instr.anyR1 0x21 (r 1)).wellFormed otherReg = true ∧
    (Instr.unregistered 0xFF 0).wellFormed Config.treg = true ∧
    refusedAs (exec (.tr3 (r 1) (r 2) (r 3)) (at_ otherReg [])) = some .notInRegistry := by decide
theorem witness_StepRunsTheDecodedRow : 1 ∉ (at_ Config.treg []).halted ∧
    (at_ Config.treg [.call 1 (.decode (encodeInstr (.tr1 (r 1))))]).pending =
      .call 1 (.decode (encodeInstr (.tr1 (r 1)))) :: [] ∧
    (Instr.tr1 (r 1)).wellFormed (at_ Config.treg []).reg = true := by decide
theorem witness_StepOfDecodeAgreesWithDecode :
    decode Config.treg ⟨0x01, 0xFC, 0, 1⟩ = .ok (tr1 (r 63)) ∧
      decode Config.treg ⟨0xFF, 0, 0, 0⟩ = .err .invalidOpcode := by decide
theorem witness_StepServesOneOperation :
    (Request.encode t3i).of Config.treg ∧
      evalRequest Config.treg (.encode t3i) = some (.ok (.bytes4 ⟨0x03, 0x04, 0x20, 0xC0⟩)) ∧
      evalRequest Config.treg (.fromByte 0x08) = some (.err .invalidOpcode) ∧
      (Request.opRegisterD t3 ⟨.r3 (r 1) (r 2) (r 3)⟩).of Config.treg ∧
      evalRequest Config.treg (.opRegisterD t3 ⟨.r3 (r 1) (r 2) (r 3)⟩) = none := by decide
theorem witness_ForeignOpcodesAreRefused : ¬ (Request.encode t3i).of otherReg := by decide
theorem witness_LoaderCutsImagesIntoWords : ([3, 4, 5, 6, 7, 8, 9, 10] : List Byte).length = 4 * 2 := by decide
theorem witness_LoaderRefusesPartialWords : ([3, 4, 5, 6, 7, 8] : List Byte).length % 4 ≠ 0 := by decide
theorem witness_HaltedCallersFault : 5 ∈ (at_ Config.treg []).halted := by decide
theorem witness_IdleStepChangesNothing : (at_ Config.treg []).pending = [] := by decide
theorem witness_ResetChangesNoResult : (nextState (step (at_ Config.treg [.call 1 (.encode t3i)]))).isSome = true := by
  decide
theorem witness_reset_of_any_registry : (State.resetWith otherReg).pending = [] := by decide
/-- A state with a pending call, a halted caller and a result, that meets the invariant. -/
theorem witness_EveryStepKeepsTheInvariant : ∃ s : State, s.Inv ∧ s.halted ≠ [] ∧ (nextState (step s)).isSome = true := by
  refine ⟨⟨Config.treg, [.call 1 (.decode ⟨3, 0, 0, 0⟩)], 5,
    [⟨5, .ok (.instruction t3i)⟩, ⟨5, .err .invalidOpcode⟩], [5]⟩, ⟨?_, ?_, ?_⟩, by decide, by decide⟩
  · intro e he
    simp only [List.mem_singleton] at he
    subst he
    decide
  · intro c
    simp [eq_comm]
  · intro v hv x hx op hop
    simp only [List.mem_cons, List.not_mem_nil, or_false] at hv
    rcases hv with rfl | rfl
    · cases hx
      simp only [Value.opcode?, Option.mem_def, Option.some.injEq] at hop
      subst hop
      decide
    · cases hx
theorem witness_ResultsDependOnArgumentsAndRegistry :
    (at_ Config.treg [.call 1 (.encode t3i)]).reg = State.reset.reg ∧ 0 ∉ State.reset.halted ∧
      (nextState (step (at_ Config.treg [.call 1 (.encode t3i)]))).isSome = true := by decide
theorem witness_InterleavedCallersGetTheirLoneResults :
    let s := at_ Config.treg [.call 1 (.decode ⟨0xFF, 0, 0, 0⟩), .call 2 (.encode t3i),
      .load 3 [3, 4, 5, 6, 0xFF, 8, 9, 10], .call 1 (.fromByte 3)]
    s.HaltedCallersAreQuiet ∧ ∀ e ∈ s.pending, e.Answerable s.reg := by
  constructor
  · intro e he
    simp only [at_, List.mem_cons, List.not_mem_nil, or_false] at he
    rcases he with rfl | rfl | rfl | rfl <;> decide
  · intro e he
    simp only [at_, List.mem_cons, List.not_mem_nil, or_false] at he
    rcases he with rfl | rfl | rfl | rfl
    · exact ⟨by decide, by decide⟩
    · exact ⟨by decide, by decide⟩
    · show _ = _; decide
    · exact ⟨by decide, by decide⟩
/-- A loading step, and a step that hands over the error while another caller waits. -/
theorem witness_StepsKeepEveryCallersResults :
    let s := at_ Config.treg [.load 3 [3, 4, 5, 6], .call 1 (.fromByte 3)]
    let t := at_ Config.treg [.call 1 (.decode ⟨0xFF, 0, 0, 0⟩), .load 3 [3, 4, 5, 6]]
    (∀ e ∈ s.pending, e.caller ∉ s.halted) ∧ (nextState (step s)).isSome = true ∧
      (∀ e ∈ t.pending, e.caller ∉ t.halted) ∧ (nextState (step t)).isSome = true := by decide

end Sys2Proof.Tests
end

section
/-! PROOFS of 20_memory.md: the byte views and the integer views of a word and of an operand field (R8, R30, R31). -/

namespace Sys2Proof

/-- A word as a number (R30). -/
theorem be32_toNat (w : Bytes4) :
    (be32 w).toNat = w.b0.toNat * 2 ^ 24 + w.b1.toNat * 2 ^ 16 + w.b2.toNat * 2 ^ 8 + w.b3.toNat := by
  simp only [be32, append_toNat]
  omega

/-- An operand field as a number (R8). -/
theorem be24_toNat (b : Bytes3) :
    (be24 b).toNat = b.b1.toNat * 2 ^ 16 + b.b2.toNat * 2 ^ 8 + b.b3.toNat := by
  simp only [be24, append_toNat]
  omega

/-- A word is its opcode byte over its operand field (R31). -/
theorem be32_eq_append (w : Bytes4) : be32 w = w.b0 ++ be24 w.tail := by
  apply BitVec.eq_of_toNat_eq
  simp only [be32_toNat, append_toNat, be24_toNat]
  omega

/-- The operand field holds bits 23..0 of the word (R31). -/
theorem be24_tail_getLsbD (w : Bytes4) (i : Nat) (h : i < 24) :
    (be24 w.tail).getLsbD i = (be32 w).getLsbD i := by
  rw [be32_eq_append, BitVec.getLsbD_append, if_pos h]

@[simp] theorem bytes4_be32 (w : Bytes4) : bytes4 (be32 w) = w := by
  obtain ⟨b0, b1, b2, b3⟩ := w
  simp only [bytes4, Bytes4.mk.injEq]
  refine ⟨?_, ?_, ?_, ?_⟩
  all_goals
    apply BitVec.eq_of_toNat_eq
    simp only [extract_toNat, be32_toNat]
    omega

@[simp] theorem be32_bytes4 (x : Word32) : be32 (bytes4 x) = x := by
  apply BitVec.eq_of_toNat_eq
  simp only [be32_toNat, bytes4, extract_toNat]
  omega

@[simp] theorem bytes3_be24 (b : Bytes3) : bytes3 (be24 b) = b := by
  obtain ⟨b1, b2, b3⟩ := b
  simp only [bytes3, Bytes3.mk.injEq]
  refine ⟨?_, ?_, ?_⟩
  all_goals
    apply BitVec.eq_of_toNat_eq
    simp only [extract_toNat, be24_toNat]
    omega

@[simp] theorem be24_bytes3 (f : Field) : be24 (bytes3 f) = f := by
  apply BitVec.eq_of_toNat_eq
  simp only [be24_toNat, bytes3, extract_toNat]
  omega

/-- Settles O4: the number of a word weighs its bytes, each byte of the view is read off `bytes4_be32`, the operand
field is the lower part of the word, and `encodeU32` is the view of `encode` by definition. -/
theorem wordViewsAreBigEndian : Obligations.WordViewsAreBigEndian := by
  unfold Obligations.WordViewsAreBigEndian
  refine ⟨fun w => ?_, be32_bytes4, bytes3_be24, be24_bytes3, fun _ => rfl⟩
  have bytes := bytes4_be32 w
  exact ⟨be32_toNat w, congrArg Bytes4.b0 bytes, congrArg Bytes4.b1 bytes, congrArg Bytes4.b2 bytes,
    congrArg Bytes4.b3 bytes, be24_tail_getLsbD w, bytes⟩

end Sys2Proof
end

section
/-! PROOFS of 30_encoding.md: the bit budget of every shape (R55), and that the opcode byte alone decides whether a word
decodes (R57, R118). -/

namespace Sys2Proof

/-- R55: the fields of a shape and its reserved bits fill the operand field. -/
theorem Shape.fieldBits_add_reservedBits (S : Shape) : S.fieldBits + S.reservedBits = 24 := by
  cases S <;> rfl

/-- Settles O5: the sum shape by shape, and the table of R55 by evaluating the layouts of R46 to R53. -/
theorem shapeBitBudgets : Obligations.ShapeBitBudgets := by
  unfold Obligations.ShapeBitBudgets
  exact ⟨Shape.fieldBits_add_reservedBits, rfl⟩

/-- R103 on a registered byte. -/
theorem Opcode.fromByte_of_mem {reg : Registry} {e : Entry} (h : e ∈ reg.entries) :
    Opcode.fromByte reg e.byte = .ok e := by
  simp only [Opcode.fromByte, Registry.lookup_of_mem h]

/-- R103 on an unregistered byte. -/
theorem Opcode.fromByte_of_unregistered {reg : Registry} {b : Byte} (h : ∀ e ∈ reg.entries, e.byte ≠ b) :
    Opcode.fromByte reg b = .err .invalidOpcode := by
  simp only [Opcode.fromByte, (reg.lookup_eq_none b).2 h]

/-- R110 where the opcode byte is registered: the operand bytes are unpacked, which cannot fail. -/
theorem decode_of_mem {reg : Registry} {e : Entry} {w : Bytes4} (h : e ∈ reg.entries) (hb : e.byte = w.b0) :
    decode reg w = .ok ⟨e, unpack e.shape (be24 w.tail)⟩ := by
  simp only [decode, ← hb, Opcode.fromByte_of_mem h]

/-- R110 where the opcode byte is not registered: the operand bytes are not read. -/
theorem decode_of_unregistered {reg : Registry} {w : Bytes4} (h : ∀ e ∈ reg.entries, e.byte ≠ w.b0) :
    decode reg w = .err .invalidOpcode := by
  simp only [decode, Opcode.fromByte_of_unregistered h]

/-- Settles O28: the words of one opcode byte `b` all have `b` as their first byte, and in both cases of R110 that byte
alone says whether decode answers an instruction. -/
theorem operandBytesNeverDecideSuccess : Obligations.OperandBytesNeverDecideSuccess := by
  unfold Obligations.OperandBytesNeverDecideSuccess
  intro reg b
  constructor
  · intro unregistered t
    exact decode_of_unregistered (w := wireWord b t) unregistered
  · rintro ⟨e, he, hb⟩ t
    exact ⟨_, decode_of_mem (w := wireWord b t) he hb⟩

end Sys2Proof
end

section
/-! PROOFS of 41_pack_unpack.md: what unpacking reads (R72 to R86, even), and the two round trips of packing and
unpacking with the isolation of fields (R87 to R89). The rules about `place` and `slice` come first, and every statement
is read off them shape by shape. -/

namespace Sys2Proof

/-! ### Reading a slice -/

/-- A slice is the shifted field, narrowed as a constructor narrows a number (R54). -/
theorem slice_eq_ofNat (f : Field) (lo n : Nat) : slice f lo n = BitVec.ofNat n (f.toNat / 2 ^ lo) := by
  apply BitVec.eq_of_toNat_eq
  rw [slice_eq_extract, extract_toNat, BitVec.toNat_ofNat]

/-- A register read from bits `lo + 5` to `lo`. -/
theorem RegId.mk_slice (f : Field) (lo : Nat) : RegId.mk (slice f lo 6) = RegId.new (f.toNat / 2 ^ lo) :=
  congrArg RegId.mk (slice_eq_ofNat f lo 6)

/-- The slice at bit 0 keeps the low bits of the field. -/
theorem slice_zero_eq_ofNat (f : Field) (n : Nat) : slice f 0 n = BitVec.ofNat n f.toNat := by
  rw [slice_eq_ofNat, pow_zero, Nat.div_one]

/-- Bit `i` of a slice, zero above its width. -/
theorem slice_getLsbD (f : Field) (lo n i : Nat) :
    (slice f lo n).getLsbD i = (decide (i < n) && f.getLsbD (lo + i)) := by
  rw [slice_eq_extract, BitVec.getLsbD_extractLsb']

@[simp] theorem slice_or (x y : Field) (lo n : Nat) : slice (x ||| y) lo n = slice x lo n ||| slice y lo n := by
  ext i h
  simp only [slice_getElem, BitVec.getElem_or, BitVec.getLsbD_or]

/-! ### A slice of a placed value: the value itself at its own bits, zero at bits above or below it -/

theorem place_getLsbD {n : Nat} (v : BitVec n) (lo i : Nat) (h : i < 24) :
    (place v lo).getLsbD i = (decide (lo ≤ i) && v.getLsbD (i - lo)) := by
  rw [BitVec.getLsbD_eq_getElem h, place_getElem]

@[simp] theorem slice_place_same {n : Nat} (v : BitVec n) (lo : Nat) (fits : lo + n ≤ 24) :
    slice (place v lo) lo n = v := by
  ext i h
  rw [slice_getElem _ _ _ _ h, place_getLsbD _ _ _ (by omega), Nat.add_sub_cancel_left]
  simp [BitVec.getLsbD_eq_getElem h]

@[simp] theorem slice_place_above {m : Nat} (v : BitVec m) (lo lo' n : Nat) (above : lo + m ≤ lo')
    (fits : lo' + n ≤ 24) : slice (place v lo) lo' n = 0#n := by
  ext i h
  rw [slice_getElem _ _ _ _ h, place_getLsbD _ _ _ (by omega), BitVec.getLsbD_of_ge v _ (by omega)]
  simp

@[simp] theorem slice_place_below {m : Nat} (v : BitVec m) (lo lo' n : Nat) (below : lo' + n ≤ lo)
    (fits : lo' + n ≤ 24) : slice (place v lo) lo' n = 0#n := by
  ext i h
  have outside : ¬ lo ≤ lo' + i := by omega
  rw [slice_getElem _ _ _ _ h, place_getLsbD _ _ _ (by omega)]
  simp [outside]

/-! ### A placed slice: the field with every other bit cleared -/

theorem place_slice (f : Field) (lo n : Nat) : place (slice f lo n) lo = f &&& place (BitVec.allOnes n) lo := by
  ext i h
  rw [BitVec.getElem_and, place_getElem _ _ _ h, place_getElem _ _ _ h, slice_getLsbD, BitVec.getLsbD_allOnes]
  by_cases hlo : lo ≤ i
  · rw [Nat.add_sub_cancel' hlo, BitVec.getLsbD_eq_getElem h]
    simp [hlo, Bool.and_comm]
  · simp [hlo]

/-! ### Packing and unpacking, shape by shape -/

@[simp] theorem pack_none : pack .none = 0#24 := rfl

@[simp] theorem pack_r1 (a : RegId) : pack (.r1 a) = place a.bits 18 := rfl

@[simp] theorem pack_r2 (a b : RegId) : pack (.r2 a b) = place a.bits 18 ||| place b.bits 12 := rfl

@[simp] theorem pack_r3 (a b c : RegId) :
    pack (.r3 a b c) = place a.bits 18 ||| place b.bits 12 ||| place c.bits 6 := rfl

@[simp] theorem pack_r4 (a b c d : RegId) :
    pack (.r4 a b c d) = place a.bits 18 ||| place b.bits 12 ||| place c.bits 6 ||| place d.bits 0 := rfl

@[simp] theorem pack_r2i12 (a b : RegId) (i : Imm12) :
    pack (.r2i12 a b i) = place a.bits 18 ||| place b.bits 12 ||| place i.bits 0 := rfl

@[simp] theorem pack_r1i18 (a : RegId) (i : Imm18) : pack (.r1i18 a i) = place a.bits 18 ||| place i.bits 0 := rfl

/-- R85 in the form of the other shapes: the immediate of I24 is placed at bit 0. -/
@[simp] theorem pack_i24 (i : Imm24) : pack (.i24 i) = place i.bits 0 := by
  simp only [pack, packI24, place, BitVec.setWidth_eq, BitVec.shiftLeft_zero]

@[simp] theorem unpack_none (f : Field) : unpack .none f = .none := rfl

@[simp] theorem unpack_r1 (f : Field) : unpack .r1 f = .r1 ⟨slice f 18 6⟩ := rfl

@[simp] theorem unpack_r2 (f : Field) : unpack .r2 f = .r2 ⟨slice f 18 6⟩ ⟨slice f 12 6⟩ := rfl

@[simp] theorem unpack_r3 (f : Field) :
    unpack .r3 f = .r3 ⟨slice f 18 6⟩ ⟨slice f 12 6⟩ ⟨slice f 6 6⟩ := rfl

@[simp] theorem unpack_r4 (f : Field) :
    unpack .r4 f = .r4 ⟨slice f 18 6⟩ ⟨slice f 12 6⟩ ⟨slice f 6 6⟩ ⟨slice f 0 6⟩ := rfl

@[simp] theorem unpack_r2i12 (f : Field) :
    unpack .r2i12 f = .r2i12 ⟨slice f 18 6⟩ ⟨slice f 12 6⟩ ⟨slice f 0 12⟩ := rfl

@[simp] theorem unpack_r1i18 (f : Field) : unpack .r1i18 f = .r1i18 ⟨slice f 18 6⟩ ⟨slice f 0 18⟩ := rfl

@[simp] theorem unpack_i24 (f : Field) : unpack .i24 f = .i24 ⟨slice f 0 24⟩ := rfl

/-! ### The statements -/

/-- Settles O8: both requests answer `unpack` by definition, and every field of every shape is a slice, which is a
constructor's low bits of the shifted number. -/
theorem unpackReadsFieldsByWeight : Obligations.UnpackReadsFieldsByWeight := by
  unfold Obligations.UnpackReadsFieldsByWeight
  refine ⟨fun _ _ _ _ => ⟨rfl, rfl⟩, fun f => ⟨rfl, ?r1, ?r2, ?r3, ?r4, ?r2i12, ?r1i18, ?i24⟩⟩
  case r1 => rw [unpack_r1, RegId.mk_slice]
  case r2 => rw [unpack_r2, RegId.mk_slice, RegId.mk_slice]
  case r3 => rw [unpack_r3, RegId.mk_slice, RegId.mk_slice, RegId.mk_slice]
  case r4 => simp only [unpack_r4, RegId.mk_slice, pow_zero, Nat.div_one]
  case r2i12 => rw [unpack_r2i12, slice_zero_eq_ofNat, RegId.mk_slice, RegId.mk_slice, Imm12.new]
  case r1i18 => rw [unpack_r1i18, slice_zero_eq_ofNat, RegId.mk_slice, Imm18.new]
  case i24 => rw [unpack_i24, slice_zero_eq_ofNat, Imm24.new]

/-- R87: a slice of a packed field reads its own value back (`slice_place_same`), since every other field leaves zeros in
those bits (`slice_place_above`, `slice_place_below`). -/
@[simp] theorem unpack_pack {S : Shape} (t : Operands S) : unpack S (pack t) = t := by
  cases t <;> simp

/-- Settles O9, by `unpack_pack`. -/
theorem unpackInvertsPack : Obligations.UnpackInvertsPack := by
  unfold Obligations.UnpackInvertsPack
  exact fun _ t => unpack_pack t

/-- R88: packing masks each unpacked field to its own bits (`place_slice`), and those bits together are the shape's
canonical mask. -/
theorem pack_unpack (S : Shape) (f : Field) : pack (unpack S f) = f &&& S.canonicalMask := by
  cases S
  case none => exact BitVec.and_zero.symm
  all_goals
    simp only [unpack_r1, unpack_r2, unpack_r3, unpack_r4, unpack_r2i12, unpack_r1i18, unpack_i24, pack_r1, pack_r2,
      pack_r3, pack_r4, pack_r2i12, pack_r1i18, pack_i24, place_slice, ← BitVec.and_or_distrib_left]
    rfl

/-- Settles O10, by `pack_unpack`. -/
theorem packAfterUnpackClearsReserved : Obligations.PackAfterUnpackClearsReserved := by
  unfold Obligations.PackAfterUnpackClearsReserved
  exact pack_unpack

/-- Settles O11: packing and unpacking gives both tuples back (`unpack_pack`), so they differ where they did before. -/
theorem packedFieldsAreIsolated : Obligations.PackedFieldsAreIsolated := by
  unfold Obligations.PackedFieldsAreIsolated
  intro S t t' n differ agree
  simp only [unpack_pack]
  exact ⟨differ, agree⟩

end Sys2Proof
end

section
/-! PROOFS of 42_per_opcode_types.md: what a built per-opcode value holds (R91, R97, R98, R101). The reserved bits of its
operand bytes are zero (R58), since a packed field is what unpacking and packing makes of it. -/

namespace Sys2Proof

/-- R46 to R53: no bit of the operand field is both kept and reserved. -/
theorem Shape.canonicalMask_and_reservedMask (S : Shape) : S.canonicalMask &&& S.reservedMask = 0#24 := by
  cases S <;> rfl

/-- A packed field is canonical: unpacking and packing it again gives it back (R87), masked (R88). -/
theorem pack_and_canonicalMask {S : Shape} (t : Operands S) : pack t &&& S.canonicalMask = pack t := by
  rw [← pack_unpack, unpack_pack]

/-- R58 for packing: the reserved bits are zero. -/
theorem pack_and_reservedMask {S : Shape} (t : Operands S) : pack t &&& S.reservedMask = 0#24 := by
  rw [← pack_and_canonicalMask, BitVec.and_assoc, Shape.canonicalMask_and_reservedMask, BitVec.and_zero]

/-- Settles O14: each request answers the operation of its rule, which by definition reads the fields `new` was given; the
reserved bits of the operand bytes are those of the packed field (`be24_bytes3`), and packing leaves them zero. -/
theorem perOpcodeValuesHoldTheirFields : Obligations.PerOpcodeValuesHoldTheirFields := by
  unfold Obligations.PerOpcodeValuesHoldTheirFields
  intro reg op t
  refine ⟨rfl, rfl, rfl, rfl, ?reserved⟩
  case reserved => rw [be24_bytes3, pack_and_reservedMask]

end Sys2Proof
end

section
/-! PROOFS of 43_opcode_registry.md: on which bytes `fromByte` succeeds, and with which entry (R103, R108). It answers
what the lookup in the registry answers, so both outcomes are those of `Registry.lookup_eq_some` and
`Registry.lookup_eq_none`. -/

namespace Sys2Proof

/-- R103: the opcode answered is the entry with that byte. -/
theorem Opcode.fromByte_eq_ok_iff (reg : Registry) (b : Byte) (op : Opcode) :
    Opcode.fromByte reg b = .ok op ↔ op ∈ reg.entries ∧ op.byte = b := by
  rw [← reg.lookup_eq_some, Opcode.fromByte]
  cases reg.lookup b with
  | none => simp only [reduceCtorEq]
  | some e => simp only [Result.ok.injEq, Option.some.injEq]

/-- R103, R108: an error means that no entry has that byte. -/
theorem Opcode.fromByte_eq_err_iff (reg : Registry) (b : Byte) :
    Opcode.fromByte reg b = .err .invalidOpcode ↔ ∀ op ∈ reg.entries, op.byte ≠ b := by
  rw [← reg.lookup_eq_none, Opcode.fromByte]
  cases reg.lookup b with
  | none => simp only
  | some e => simp only [reduceCtorEq]

/-- The request `fromByte` puts the operation's result on the output bus. -/
theorem Machine.evalRequest_fromByte (reg : Registry) (b : Byte) :
    evalRequest reg (.fromByte b) = some (opcodeResult (Opcode.fromByte reg b)) := rfl

/-- Settles O16: the two outcomes of `fromByte`, what the request answers in each of them, and the unique bytes of a
well-formed registry (R14 (a)). -/
theorem fromByteOkIffRegistered : Obligations.FromByteOkIffRegistered := by
  unfold Obligations.FromByteOkIffRegistered
  intro reg b
  refine ⟨Opcode.fromByte_eq_ok_iff reg b, Opcode.fromByte_eq_err_iff reg b, fun op answered => ?ok,
    fun failed => ?err, reg.bytes_nodup⟩
  case ok => rw [Machine.evalRequest_fromByte, answered, Machine.opcodeResult]
  case err => rw [Machine.evalRequest_fromByte, failed, Machine.opcodeResult]

end Sys2Proof
end

section
/-! PROOFS of 44_instruction_union.md: decode (R110), encode (R111, R112), opcode extraction (R113), and what decoding and
encoding are to each other (R114 to R116). The parts of an encoded word come first: every statement about a word is then
one about its opcode byte and its operand field. -/

namespace Sys2Proof

/-! ### The parts of a word -/

/-- A word is its opcode byte and its operand bytes (R29). -/
@[simp] theorem wireWord_eta (w : Bytes4) : wireWord w.b0 w.tail = w := rfl

/-- R111: the first byte of an encoded instruction. -/
@[simp] theorem encode_b0 (i : Instruction) : (encode i).b0 = i.op.byte := rfl

/-- R111: the operand field of an encoded instruction. -/
@[simp] theorem be24_encode_tail (i : Instruction) : be24 (encode i).tail = pack i.payload := by
  rw [encode, wireWord_tail, be24_bytes3]

/-- R112: an encoded instruction as a number is `(b << 24) | pack_S(t)`, the concatenation of its parts. -/
theorem encodeU32_eq_shiftLeft_or (i : Instruction) :
    encodeU32 i = (i.op.byte.setWidth 32 <<< 24) ||| (pack i.payload).setWidth 32 := by
  rw [encodeU32, be32_eq_append, encode_b0, be24_encode_tail,
    ← BitVec.setWidth_append_eq_shiftLeft_setWidth_or, BitVec.setWidth_eq]

/-! ### Canonical fields -/

/-- R46 to R53: every bit of the operand field is kept or reserved. -/
theorem Shape.canonicalMask_or_reservedMask (S : Shape) : S.canonicalMask ||| S.reservedMask = BitVec.allOnes 24 := by
  cases S <;> rfl

/-- Clearing the reserved bits of a field that has none set changes nothing. -/
theorem and_canonicalMask_of_and_reservedMask {S : Shape} {f : Field} (h : f &&& S.reservedMask = 0#24) :
    f &&& S.canonicalMask = f :=
  calc f &&& S.canonicalMask
      = f &&& S.canonicalMask ||| f &&& S.reservedMask := by rw [h, BitVec.or_zero]
    _ = f &&& (S.canonicalMask ||| S.reservedMask) := BitVec.and_or_distrib_left.symm
    _ = f := by rw [S.canonicalMask_or_reservedMask, BitVec.and_allOnes]

/-! ### Decoding and encoding -/

/-- R110: an error means that the opcode byte is not registered. -/
theorem decode_eq_err_iff (reg : Registry) (w : Bytes4) :
    decode reg w = .err .invalidOpcode ↔ ∀ e ∈ reg.entries, e.byte ≠ w.b0 := by
  constructor
  · intro failed e he hb
    rw [decode_of_mem he hb] at failed
    cases failed
  · exact decode_of_unregistered

/-- R114: the first byte of an encoding selects the instruction's own opcode, and unpacking inverts packing. -/
theorem decode_encode {reg : Registry} {i : Instruction} (h : i.of reg) : decode reg (encode i) = .ok i := by
  rw [decode_of_mem h (encode_b0 i).symm, be24_encode_tail, unpack_pack]

/-- R116 for a word of opcode `op`: packing what was unpacked clears the reserved bits. -/
theorem encode_unpack (op : Opcode) (f : Field) :
    encode ⟨op, unpack op.shape f⟩ = wireWord op.byte (bytes3 (f &&& op.shape.canonicalMask)) := by
  rw [encode, pack_unpack, Opcode.toByte]

/-- R115: a word whose reserved bits are zero keeps its operand bytes. -/
theorem wireWord_and_canonicalMask {S : Shape} {w : Bytes4} (h : be24 w.tail &&& S.reservedMask = 0#24) :
    wireWord w.b0 (bytes3 (be24 w.tail &&& S.canonicalMask)) = w := by
  rw [and_canonicalMask_of_and_reservedMask h, bytes3_be24, wireWord_eta]

/-! ### The statements -/

/-- Settles O22: the two outcomes of decode. -/
theorem decodeFollowsOpcodeByte : Obligations.DecodeFollowsOpcodeByte := by
  unfold Obligations.DecodeFollowsOpcodeByte
  exact fun reg w => ⟨fun _ => decode_of_mem, decode_eq_err_iff reg w⟩

/-- Settles O23: the requests answer `encode` and `encodeU32`, whose bytes and integer are given by definition; the form of
the integer with a shift is the concatenation, its bytes are the word again, and packing leaves the reserved bits zero. -/
theorem encodeFollowsLayout : Obligations.EncodeFollowsLayout := by
  unfold Obligations.EncodeFollowsLayout
  intro reg i
  refine ⟨rfl, rfl, rfl, rfl, encodeU32_eq_shiftLeft_or i, bytes4_be32 (encode i), ?reserved, ?registered⟩
  case reserved => rw [be24_encode_tail, pack_and_reservedMask]
  case registered => exact fun h => ⟨i.op, h, (encode_b0 i).symm⟩

/-- Settles O24: the request answers the opcode the instruction holds, and `encode_b0` is its byte. -/
theorem opcodeExtraction : Obligations.OpcodeExtraction := by
  unfold Obligations.OpcodeExtraction
  exact fun _ op t => ⟨rfl, (encode_b0 ⟨op, t⟩).symm⟩

/-- Settles O25, by `decode_encode`. -/
theorem decodeInvertsEncode : Obligations.DecodeInvertsEncode := by
  unfold Obligations.DecodeInvertsEncode
  exact fun _ _ => decode_encode

/-- Settles O26: the instruction decoded from a word of entry `e` encodes to the word with its reserved bits cleared
(`encode_unpack`), and where none is set that is the word itself. -/
theorem encodeAfterDecodeCanonicalizes : Obligations.EncodeAfterDecodeCanonicalizes := by
  unfold Obligations.EncodeAfterDecodeCanonicalizes
  intro reg w e he hb
  have clears : encode ⟨e, unpack e.shape (be24 w.tail)⟩ =
      wireWord w.b0 (bytes3 (be24 w.tail &&& e.shape.canonicalMask)) := by
    rw [encode_unpack, hb]
  exact ⟨_, decode_of_mem he hb, clears, fun canonical => clears.trans (wireWord_and_canonicalMask canonical)⟩

end Sys2Proof
end

section
/-! PROOFS of 60_exceptions.md: which operations answer `InvalidOpcode`, and which requests have no answer (R121, R122).
What an evaluation can be is said once, in `evalRequest_cases`; the two operations that can fail have a lemma each. -/

namespace Sys2Proof.Machine

/-! ### Results on the output bus -/

/-- The output bus shows an error of `fromByte` exactly where the operation answers it. -/
theorem opcodeResult_eq_err_iff (res : Result Opcode) (err : CodecError) :
    opcodeResult res = .err err ↔ res = .err err := by
  cases res with
  | ok op => simp only [opcodeResult, reduceCtorEq]
  | err e => simp only [opcodeResult]

/-- The output bus shows an error of `decode` exactly where the operation answers it. -/
theorem instructionResult_eq_err_iff (res : Result Instruction) (err : CodecError) :
    instructionResult res = .err err ↔ res = .err err := by
  cases res with
  | ok i => simp only [instructionResult, reduceCtorEq]
  | err e => simp only [instructionResult]

/-- R92 to R95: a register accessor answers the register, or has no answer where the shape lacks it (D16). -/
theorem registerValue_cases (r : Option RegId) :
    (∃ v, registerValue r = some (.ok v)) ∨ (r = none ∧ registerValue r = none) := by
  cases r with
  | none => exact .inr ⟨rfl, rfl⟩
  | some a => exact .inl ⟨.regId a, rfl⟩

/-- R96: the immediate accessor answers the immediate, or has no answer where the shape lacks it (D16). -/
theorem immediateValue_cases (i : Option Immediate) :
    (∃ v, immediateValue i = some (.ok v)) ∨ (i = none ∧ immediateValue i = none) := by
  cases i with
  | none => exact .inr ⟨rfl, rfl⟩
  | some a => exact .inl ⟨.immediate a, rfl⟩

/-! ### What an evaluation can be -/

/-- A request for a field that the shape of its opcode lacks: no such accessor exists (D16). -/
def Request.AsksAbsentField (r : Request) : Prop :=
  ∃ (op : Opcode) (x : Op op),
    (r = .opRegisterA op x ∧ x.registerA = none) ∨ (r = .opRegisterB op x ∧ x.registerB = none) ∨
    (r = .opRegisterC op x ∧ x.registerC = none) ∨ (r = .opRegisterD op x ∧ x.registerD = none) ∨
    (r = .opImmediate op x ∧ x.immediate = none)

/-- R121, R122: every operation but `fromByte` and `decode` answers a value, or asks for an absent field and has no
answer. -/
theorem evalRequest_cases (reg : Registry) (r : Request) :
    (∃ v, evalRequest reg r = some (.ok v)) ∨ (r.AsksAbsentField ∧ evalRequest reg r = none) ∨
      (∃ b, r = .fromByte b) ∨ (∃ w, r = .decode w) := by
  cases r
  case opRegisterA op x =>
    exact (registerValue_cases x.registerA).imp_right fun ⟨absent, unanswered⟩ =>
      .inl ⟨⟨op, x, .inl ⟨rfl, absent⟩⟩, unanswered⟩
  case opRegisterB op x =>
    exact (registerValue_cases x.registerB).imp_right fun ⟨absent, unanswered⟩ =>
      .inl ⟨⟨op, x, .inr (.inl ⟨rfl, absent⟩)⟩, unanswered⟩
  case opRegisterC op x =>
    exact (registerValue_cases x.registerC).imp_right fun ⟨absent, unanswered⟩ =>
      .inl ⟨⟨op, x, .inr (.inr (.inl ⟨rfl, absent⟩))⟩, unanswered⟩
  case opRegisterD op x =>
    exact (registerValue_cases x.registerD).imp_right fun ⟨absent, unanswered⟩ =>
      .inl ⟨⟨op, x, .inr (.inr (.inr (.inl ⟨rfl, absent⟩)))⟩, unanswered⟩
  case opImmediate op x =>
    exact (immediateValue_cases x.immediate).imp_right fun ⟨absent, unanswered⟩ =>
      .inl ⟨⟨op, x, .inr (.inr (.inr (.inr ⟨rfl, absent⟩)))⟩, unanswered⟩
  case fromByte b => exact .inr (.inr (.inl ⟨b, rfl⟩))
  case decode w => exact .inr (.inr (.inr ⟨w, rfl⟩))
  all_goals exact .inl ⟨_, rfl⟩

/-! ### The two operations that can fail -/

/-- R103 as a request: the error is answered exactly on an unregistered byte. -/
theorem evalRequest_fromByte_eq_err_iff (reg : Registry) (b : Byte) (err : CodecError) :
    evalRequest reg (.fromByte b) = some (.err err) ↔ ∀ e ∈ reg.entries, e.byte ≠ b := by
  cases err
  rw [evalRequest_fromByte, Option.some.injEq, opcodeResult_eq_err_iff, Opcode.fromByte_eq_err_iff]

/-- The request `decode` puts the operation's result on the output bus. -/
theorem evalRequest_decode (reg : Registry) (w : Bytes4) :
    evalRequest reg (.decode w) = some (instructionResult (decode reg w)) := rfl

/-- R110 as a request: the error is answered exactly on a word whose opcode byte is unregistered. -/
theorem evalRequest_decode_eq_err_iff (reg : Registry) (w : Bytes4) (err : CodecError) :
    evalRequest reg (.decode w) = some (.err err) ↔ ∀ e ∈ reg.entries, e.byte ≠ w.b0 := by
  cases err
  rw [evalRequest_decode, Option.some.injEq, instructionResult_eq_err_iff, decode_eq_err_iff]

/-! ### The statement -/

/-- R121, R122: the raisers of `InvalidOpcode`. -/
theorem evalRequest_eq_err_iff (reg : Registry) (r : Request) (err : CodecError) :
    evalRequest reg r = some (.err err) ↔
      (∃ b, r = .fromByte b ∧ ∀ e ∈ reg.entries, e.byte ≠ b) ∨
      (∃ w, r = .decode w ∧ ∀ e ∈ reg.entries, e.byte ≠ w.b0) := by
  constructor
  · intro failed
    rcases evalRequest_cases reg r with ⟨v, answered⟩ | ⟨-, unanswered⟩ | ⟨b, rfl⟩ | ⟨w, rfl⟩
    · simp only [answered, Option.some.injEq, reduceCtorEq] at failed
    · simp only [unanswered, reduceCtorEq] at failed
    · exact .inl ⟨b, rfl, (evalRequest_fromByte_eq_err_iff reg b err).1 failed⟩
    · exact .inr ⟨w, rfl, (evalRequest_decode_eq_err_iff reg w err).1 failed⟩
  · rintro (⟨b, rfl, unregistered⟩ | ⟨w, rfl, unregistered⟩)
    · exact (evalRequest_fromByte_eq_err_iff reg b err).2 unregistered
    · exact (evalRequest_decode_eq_err_iff reg w err).2 unregistered

/-- R122, D16: a request without an answer asks for an absent field. -/
theorem asksAbsentField_of_evalRequest_eq_none {reg : Registry} {r : Request} (unanswered : evalRequest reg r = none) :
    r.AsksAbsentField := by
  rcases evalRequest_cases reg r with ⟨v, answered⟩ | ⟨absent, -⟩ | ⟨b, rfl⟩ | ⟨w, rfl⟩
  · simp only [answered, reduceCtorEq] at unanswered
  · exact absent
  · simp only [evalRequest_fromByte, reduceCtorEq] at unanswered
  · simp only [evalRequest_decode, reduceCtorEq] at unanswered

/-- Settles O31, by `evalRequest_eq_err_iff` and `asksAbsentField_of_evalRequest_eq_none`. -/
theorem onlyUnregisteredBytesFail : Obligations.OnlyUnregisteredBytesFail := by
  unfold Obligations.OnlyUnregisteredBytesFail
  exact fun reg r => ⟨evalRequest_eq_err_iff reg r, asksAbsentField_of_evalRequest_eq_none⟩

end Sys2Proof.Machine
end

section
/-! PROOFS of 44_instruction_union.md, continued: decoding is a bijection from the canonical words onto the registry's
instructions (R117), and the reserved bits of a word do not matter to it (R58). -/

namespace Sys2Proof

/-! ### Reserved bits and unpacking -/

/-- Two fields that agree outside the reserved bits unpack alike: packing after unpacking forgets those bits (R88), and
unpacking inverts packing (R87). -/
theorem unpack_congr {S : Shape} {f g : Field} (h : f &&& S.canonicalMask = g &&& S.canonicalMask) :
    unpack S f = unpack S g :=
  calc unpack S f
      = unpack S (pack (unpack S f)) := (unpack_pack _).symm
    _ = unpack S (pack (unpack S g)) := by rw [pack_unpack, pack_unpack, h]
    _ = unpack S g := unpack_pack _

/-- R58: unpacking ignores the reserved bits. -/
theorem unpack_and_canonicalMask (S : Shape) (f : Field) : unpack S (f &&& S.canonicalMask) = unpack S f :=
  unpack_congr (by rw [BitVec.and_assoc, BitVec.and_self])

/-- An under-full shape (R55) has a reserved bit. -/
theorem Shape.reservedMask_ne_zero {S : Shape} (h : 0 < S.reservedBits) : S.reservedMask ≠ 0#24 := by
  cases S
  case none | r1 | r2 | r3 => decide
  case r4 | r2i12 | r1i18 | i24 => cases h

/-! ### Canonical words -/

/-- R115: an encoded instruction of the registry is a canonical word. -/
theorem canonical_encode {reg : Registry} {i : Instruction} (h : i.of reg) : reg.canonical (encode i) :=
  ⟨i.op, Registry.lookup_of_mem h, by rw [be24_encode_tail, pack_and_reservedMask]⟩

/-- A canonical word decodes to an instruction of the registry that encodes to the word. -/
theorem decode_of_canonical {reg : Registry} {w : Bytes4} (h : reg.canonical w) :
    ∃ i, i.of reg ∧ decode reg w = .ok i ∧ encode i = w := by
  obtain ⟨e, found, reserved⟩ := h
  obtain ⟨he, hb⟩ := (reg.lookup_eq_some _ e).1 found
  refine ⟨_, he, decode_of_mem he hb, ?_⟩
  rw [encode_unpack, hb, wireWord_and_canonicalMask reserved]

/-- On canonical words decoding is injective, with inverse `encode`. -/
theorem eq_encode_of_canonical {reg : Registry} {w : Bytes4} {i : Instruction} (h : reg.canonical w)
    (decoded : decode reg w = .ok i) : w = encode i := by
  obtain ⟨j, -, hj, encoded⟩ := decode_of_canonical h
  rw [decoded, Result.ok.injEq] at hj
  rw [hj, encoded]

/-- Words of one registered opcode byte that differ in reserved bits only decode alike. -/
theorem decode_wireWord_congr {reg : Registry} {e : Entry} (he : e ∈ reg.entries) {f g : Field}
    (h : f &&& e.shape.canonicalMask = g &&& e.shape.canonicalMask) :
    decode reg (wireWord e.byte (bytes3 f)) = decode reg (wireWord e.byte (bytes3 g)) := by
  rw [decode_of_mem he (wireWord_b0 _ _).symm, decode_of_mem he (wireWord_b0 _ _).symm]
  simp only [wireWord_tail, be24_bytes3, unpack_congr h]

/-- Decoding an opcode of an under-full shape is not injective: a word with every bit of the field 0 and one with the
reserved bits set spell one instruction. -/
theorem decode_not_injective {reg : Registry} {e : Entry} (he : e ∈ reg.entries) (under : 0 < e.shape.reservedBits) :
    ∃ w w' i, w ≠ w' ∧ decode reg w = .ok i ∧ decode reg w' = .ok i := by
  have alike : e.shape.reservedMask &&& e.shape.canonicalMask = 0#24 &&& e.shape.canonicalMask := by
    rw [BitVec.and_comm, Shape.canonicalMask_and_reservedMask, BitVec.zero_and]
  refine ⟨wireWord e.byte (bytes3 e.shape.reservedMask), wireWord e.byte (bytes3 0#24), _, fun same => ?_,
    (decode_wireWord_congr he alike).trans (decode_of_mem he rfl), decode_of_mem he rfl⟩
  have fields := congrArg (fun w => be24 w.tail) same
  simp only [wireWord_tail, be24_bytes3] at fields
  exact Shape.reservedMask_ne_zero under fields

/-- Settles O27: `decode_of_canonical` is the way there, `canonical_encode` and `decode_encode` the way back, and
`eq_encode_of_canonical` makes the word unique; `decode_of_mem` is totality. -/
theorem decodeBijectiveOnCanonicalWords : Obligations.DecodeBijectiveOnCanonicalWords := by
  unfold Obligations.DecodeBijectiveOnCanonicalWords
  intro reg
  refine ⟨fun w => decode_of_canonical, fun i hi => ⟨canonical_encode hi, decode_encode hi, fun w =>
    eq_encode_of_canonical⟩, fun w e he hb => ⟨_, he, decode_of_mem he hb⟩, ?_⟩
  rintro ⟨e, he, under⟩
  exact decode_not_injective he under

/-- R46 to R53: the canonical mask is the complement of the reserved mask. -/
theorem Shape.canonicalMask_eq_not (S : Shape) : S.canonicalMask = ~~~S.reservedMask := by
  cases S <;> rfl

/-- Settles O6: the reserved mask shape by shape, and `Shape.canonicalMask_eq_not`. -/
theorem shapeMasksAreComplementary : Obligations.ShapeMasksAreComplementary := by
  unfold Obligations.ShapeMasksAreComplementary
  refine fun S => ⟨?_, S.canonicalMask_eq_not⟩
  cases S <;> rfl

/-- Settles O12: a packed field has its reserved bits zero; clearing them in a word leaves the canonical bits, which are
all that unpacking reads. -/
theorem reservedBitsZeroOnEncodeIgnoredOnDecode : Obligations.ReservedBitsZeroOnEncodeIgnoredOnDecode := by
  unfold Obligations.ReservedBitsZeroOnEncodeIgnoredOnDecode
  refine ⟨fun i => by rw [be24_encode_tail, pack_and_reservedMask], fun reg w e he hb => ?_⟩
  rw [decode_of_mem he hb, decode_of_mem he (hb.trans (wireWord_b0 _ _).symm), wireWord_tail, be24_bytes3,
    ← Shape.canonicalMask_eq_not, unpack_and_canonicalMask]

/-- Settles O30: the request builds the instruction, whose encoding decodes back to it (`decode_encode`) and is canonical
(`canonical_encode`). -/
theorem namedConstructorsAreCanonical : Obligations.NamedConstructorsAreCanonical := by
  unfold Obligations.NamedConstructorsAreCanonical
  intro reg op t h
  have holds : (namedConstructor op t).of reg := h
  exact ⟨rfl, decode_encode holds, rfl, canonical_encode holds⟩

end Sys2Proof
end

section
/-! PROOFS of 40_primitives.md: the constructors mask to their widths (R63 to R69, odd) and the accessors read back
(R64 to R70, even), width by width of one fact about `BitVec.ofNat` each. -/

namespace Sys2Proof

/-- The constructors, in the spec's two forms: the remainder, and the mask of ones (D3). -/
theorem ofNat_toNat_eq_mod_and_mask (n raw : Nat) :
    (BitVec.ofNat n raw).toNat = raw % 2 ^ n ∧ (BitVec.ofNat n raw).toNat = raw &&& (2 ^ n - 1) :=
  ⟨BitVec.toNat_ofNat raw n, (BitVec.toNat_ofNat raw n).trans (Nat.and_two_pow_sub_one_eq_mod raw n).symm⟩

/-- A raw value that fits is read back. -/
theorem ofNat_toNat_of_le {n v : Nat} (h : v ≤ 2 ^ n - 1) : (BitVec.ofNat n v).toNat = v :=
  (BitVec.toNat_ofNat v n).trans (Nat.mod_eq_of_lt (Nat.lt_of_le_pred (Nat.two_pow_pos n) h))

/-- A held value is read back as it is. -/
theorem ofNat_toNat_self {n : Nat} (v : BitVec n) : BitVec.ofNat n v.toNat = v :=
  (BitVec.ofNat_toNat n v).trans (BitVec.setWidth_eq v)

/-- Settles O1: the register constructor is `BitVec.ofNat` at width 6. -/
theorem regIdConstructorMasks : Obligations.RegIdConstructorMasks := by
  unfold Obligations.RegIdConstructorMasks
  exact fun _ raw => ⟨rfl, ofNat_toNat_eq_mod_and_mask 6 raw⟩

/-- Settles O2: the immediate constructors are `BitVec.ofNat` at widths 12, 18 and 24. -/
theorem immediateConstructorsMask : Obligations.ImmediateConstructorsMask := by
  unfold Obligations.ImmediateConstructorsMask
  exact fun _ raw => ⟨⟨rfl, ofNat_toNat_eq_mod_and_mask 12 raw⟩, ⟨rfl, ofNat_toNat_eq_mod_and_mask 18 raw⟩,
    ⟨rfl, ofNat_toNat_eq_mod_and_mask 24 raw⟩⟩

@[simp] theorem RegId.new_value (r : RegId) : RegId.new r.value = r := congrArg RegId.mk (ofNat_toNat_self r.bits)
@[simp] theorem Imm12.new_value (i : Imm12) : Imm12.new i.value = i := congrArg Imm12.mk (ofNat_toNat_self i.bits)
@[simp] theorem Imm18.new_value (i : Imm18) : Imm18.new i.value = i := congrArg Imm18.mk (ofNat_toNat_self i.bits)
@[simp] theorem Imm24.new_value (i : Imm24) : Imm24.new i.value = i := congrArg Imm24.mk (ofNat_toNat_self i.bits)

/-- Settles O3: the held number is in range since the bits are, `new` of it is the value again, and a number that fits is
not changed by the mask. -/
theorem primitiveAccessorsReadBack : Obligations.PrimitiveAccessorsReadBack := by
  unfold Obligations.PrimitiveAccessorsReadBack
  exact fun _ => ⟨fun r => ⟨rfl, r.bits.isLt, r.new_value⟩, fun i => ⟨rfl, i.bits.isLt, i.new_value⟩,
    fun i => ⟨rfl, i.bits.isLt, i.new_value⟩, fun i => ⟨rfl, i.bits.isLt, i.new_value⟩,
    fun _ => ofNat_toNat_of_le (n := 6), fun _ => ofNat_toNat_of_le (n := 12), fun _ => ofNat_toNat_of_le (n := 18),
    fun _ => ofNat_toNat_of_le (n := 24)⟩

end Sys2Proof
end

section
/-! PROOFS of 41_pack_unpack.md and 42_per_opcode_types.md, continued: a packed field as a number (R73 to R85, odd), the
accessors (R92 to R96) and the wire forms of a per-opcode value (R99, R100, R102). -/

namespace Sys2Proof

/-! ### A packed field as a number: its parts are placed at weights that do not overlap (R9) -/

theorem pack_r1_toNat (a : RegId) : (pack (.r1 a)).toNat = a.value * 2 ^ 18 := by
  rw [pack_r1, place_toNat _ _ (by omega), RegId.value]

/-- Or-ing in one more field below bit `k` adds its weight. -/
theorem or_place_toNat {n : Nat} (x : Field) (v : BitVec n) {k lo a : Nat} (hx : x.toNat = a * 2 ^ k)
    (fits : n + lo ≤ k) (hk : k ≤ 24) : (x ||| place v lo).toNat = x.toNat + v.toNat * 2 ^ lo := by
  have weight : (place v lo).toNat = v.toNat * 2 ^ lo := place_toNat v lo (by omega)
  have below : v.toNat * 2 ^ lo < 2 ^ k :=
    calc v.toNat * 2 ^ lo < 2 ^ n * 2 ^ lo := Nat.mul_lt_mul_of_pos_right v.isLt (Nat.two_pow_pos lo)
      _ = 2 ^ (n + lo) := (pow_add 2 n lo).symm
      _ ≤ 2 ^ k := Nat.pow_le_pow_right (by omega) fits
  rw [or_toNat x _ k a hx (by rw [weight]; exact below), weight]

theorem pack_r2_toNat (a b : RegId) : (pack (.r2 a b)).toNat = a.value * 2 ^ 18 + b.value * 2 ^ 12 := by
  have ha := pack_r1_toNat a
  rw [pack_r1] at ha
  rw [pack_r2, or_place_toNat _ _ ha (by omega) (by omega), ha, RegId.value, RegId.value]

theorem pack_r3_toNat (a b c : RegId) :
    (pack (.r3 a b c)).toNat = a.value * 2 ^ 18 + b.value * 2 ^ 12 + c.value * 2 ^ 6 := by
  have hab := pack_r2_toNat a b
  rw [pack_r2] at hab
  have weight : a.value * 2 ^ 18 + b.value * 2 ^ 12 = (a.value * 2 ^ 6 + b.value) * 2 ^ 12 := by omega
  rw [pack_r3, or_place_toNat _ _ (hab.trans weight) (by omega) (by omega), hab, ← RegId.value]

theorem pack_r4_toNat (a b c d : RegId) :
    (pack (.r4 a b c d)).toNat = a.value * 2 ^ 18 + b.value * 2 ^ 12 + c.value * 2 ^ 6 + d.value := by
  have habc := pack_r3_toNat a b c
  rw [pack_r3] at habc
  have weight : a.value * 2 ^ 18 + b.value * 2 ^ 12 + c.value * 2 ^ 6 =
      (a.value * 2 ^ 12 + b.value * 2 ^ 6 + c.value) * 2 ^ 6 := by omega
  rw [pack_r4, or_place_toNat _ _ (habc.trans weight) (by omega) (by omega), habc, ← RegId.value, pow_zero, mul_one]

theorem pack_r2i12_toNat (a b : RegId) (i : Imm12) :
    (pack (.r2i12 a b i)).toNat = a.value * 2 ^ 18 + b.value * 2 ^ 12 + i.value := by
  have hab := pack_r2_toNat a b
  rw [pack_r2] at hab
  have weight : a.value * 2 ^ 18 + b.value * 2 ^ 12 = (a.value * 2 ^ 6 + b.value) * 2 ^ 12 := by omega
  rw [pack_r2i12, or_place_toNat _ _ (hab.trans weight) (by omega) (by omega), hab, ← Imm12.value, pow_zero, mul_one]

theorem pack_r1i18_toNat (a : RegId) (i : Imm18) : (pack (.r1i18 a i)).toNat = a.value * 2 ^ 18 + i.value := by
  have ha := pack_r1_toNat a
  rw [pack_r1] at ha
  rw [pack_r1i18, or_place_toNat _ _ ha (by omega) (by omega), ha, ← Imm18.value, pow_zero, mul_one]

/-- Settles O7: the requests answer `pack` by definition, and each shape's fields lie at their weights. -/
theorem packPlacesFieldsByWeight : Obligations.PackPlacesFieldsByWeight := by
  unfold Obligations.PackPlacesFieldsByWeight
  exact ⟨fun _ _ _ => ⟨rfl, rfl⟩, rfl, pack_r1_toNat, pack_r2_toNat, pack_r3_toNat, pack_r4_toNat, pack_r2i12_toNat,
    pack_r1i18_toNat, fun _ => rfl⟩

/-! ### Accessors -/

/-- Settles O13: the value's fields are what unpacking reads from its packed field (R87), so shape by shape (R62) an
accessor answers that slice, which is the extracted bit range, or has nothing to answer. -/
theorem accessorsReadTheirBits : Obligations.AccessorsReadTheirBits := by
  unfold Obligations.AccessorsReadTheirBits
  intro reg op ⟨t⟩
  obtain ⟨f, packed⟩ : ∃ f, pack t = f := ⟨_, rfl⟩
  obtain rfl : unpack op.shape f = t := by rw [← packed, unpack_pack]
  simp only [packed, ← slice_eq_extract]
  obtain ⟨b, m, S, doc⟩ := op
  cases S <;> exact ⟨rfl, rfl, rfl, rfl, rfl⟩

/-! ### Wire forms -/

/-- R100 and R112 agree: a per-opcode value's word is that of the instruction it wraps into. -/
theorem Op.toU32_eq_encodeU32 {op : Opcode} (x : Op op) : x.toU32 = encodeU32 x.intoInstruction :=
  (encodeU32_eq_shiftLeft_or x.intoInstruction).symm

/-- R112 as a number: the opcode byte over the packed field. -/
theorem encodeU32_toNat (i : Instruction) :
    (encodeU32 i).toNat = i.op.byte.toNat * 2 ^ 24 + (pack i.payload).toNat := by
  rw [encodeU32, be32_eq_append, append_toNat, encode_b0, be24_encode_tail]

/-- R102 after R98: the operand bytes hold every field. -/
theorem Op.fromOperandBytes_toOperandBytes {op : Opcode} (x : Op op) :
    Op.fromOperandBytes op x.toOperandBytes = x := by
  rw [Op.fromOperandBytes, Op.toOperandBytes, be24_bytes3, unpack_pack]

/-- Settles O15: the wire forms are those of the wrapped instruction, the operand bytes unpack to the fields, and unpacking
does not see the reserved bits (`unpack_congr`). -/
theorem perOpcodeWireForms : Obligations.PerOpcodeWireForms := by
  unfold Obligations.PerOpcodeWireForms
  intro reg op x
  refine ⟨rfl, rfl, rfl, x.toU32_eq_encodeU32, ?number, fun _ => rfl, x.fromOperandBytes_toOperandBytes, ?reserved⟩
  case number => rw [x.toU32_eq_encodeU32]; exact encodeU32_toNat x.intoInstruction
  case reserved => exact fun b b' agree => congrArg Op.mk (unpack_congr agree)

end Sys2Proof
end

section
/-! PROOFS of 43_opcode_registry.md and of 10_state.md, Configuration: `fromByte` and `toByte` (R109), what identifies an
opcode (R104 to R106), which lists are registries (R107), and that neither the order of the entries nor their documentation
has an effect (R14 (e)). -/

namespace Sys2Proof

/-- Settles O17, by the two readings of `fromByte`. -/
theorem opcodeByteConversionsInvert : Obligations.OpcodeByteConversionsInvert := by
  unfold Obligations.OpcodeByteConversionsInvert
  exact fun reg => ⟨fun _ => Opcode.fromByte_of_mem, fun b op h => ((Opcode.fromByte_eq_ok_iff reg b op).1 h).2⟩

/-- Two entries of a registry with one mnemonic are one entry (R14 (b)). -/
theorem Registry.eq_of_mnemonic (reg : Registry) {e e' : Entry} (h : e ∈ reg.entries) (h' : e' ∈ reg.entries)
    (hm : e.mnemonic = e'.mnemonic) : e = e' :=
  List.inj_on_of_nodup_map reg.mnemonics_nodup h h' hm

/-- Settles O18: the requests answer the entry's own fields, and bytes and mnemonics are unique in a registry. -/
theorem opcodeAttributesIdentify : Obligations.OpcodeAttributesIdentify := by
  unfold Obligations.OpcodeAttributesIdentify
  exact fun reg op h => ⟨rfl, rfl, rfl, fun op' h' => ⟨reg.eq_of_byte h h', reg.eq_of_mnemonic h h'⟩⟩

/-- The check of R14 in words: (a), (b) and (d). -/
theorem Registry.check_iff (entries : List Entry) :
    Registry.check entries = true ↔
      (entries.map Entry.byte).Nodup ∧ (entries.map Entry.mnemonic).Nodup ∧ entries.length ≤ 256 := by
  simp only [Registry.check, Bool.and_eq_true, decide_eq_true_eq, and_assoc]

/-- R107: what is built is the given list, which passed the check. -/
theorem Registry.build_eq_some_iff (entries : List Entry) (reg : Registry) :
    Registry.build entries = some reg ↔ reg.entries = entries := by
  obtain ⟨built, wf⟩ := reg
  constructor
  · intro h
    rw [Registry.build, Option.dite_none_right_eq_some] at h
    obtain ⟨_, h⟩ := h
    exact (congrArg Registry.entries (Option.some.inj h)).symm
  · rintro rfl
    exact dif_pos wf

/-- Settles O19: a registry is built exactly where its own entries are the list, and its own entries pass the check. -/
theorem onlyWellFormedRegistriesAreBuilt : Obligations.OnlyWellFormedRegistriesAreBuilt := by
  unfold Obligations.OnlyWellFormedRegistriesAreBuilt
  intro entries
  refine ⟨fun reg => (Registry.build_eq_some_iff entries reg).1, ?_⟩
  rw [← Registry.check_iff]
  constructor
  · rintro ⟨reg, built⟩
    rw [← (Registry.build_eq_some_iff entries reg).1 built]
    exact reg.wf
  · exact fun wf => ⟨⟨entries, wf⟩, (Registry.build_eq_some_iff entries _).2 rfl⟩

/-! ### The order of the entries -/

/-- Registries with the same entries, in whatever order, answer every lookup alike: bytes are unique. -/
theorem Registry.lookup_congr {reg reg' : Registry} (h : ∀ e, e ∈ reg.entries ↔ e ∈ reg'.entries) (b : Byte) :
    reg.lookup b = reg'.lookup b := by
  ext e
  rw [Registry.lookup_eq_some, Registry.lookup_eq_some, h]

theorem decode_congr {reg reg' : Registry} (h : ∀ b, reg.lookup b = reg'.lookup b) (w : Bytes4) :
    decode reg w = decode reg' w := by
  simp only [decode, Opcode.fromByte, h]

/-- An operation reads the registry by looking up a byte, and in no other way (R11). -/
theorem Machine.evalRequest_congr {reg reg' : Registry} (h : ∀ b, reg.lookup b = reg'.lookup b) (r : Request) :
    evalRequest reg r = evalRequest reg' r := by
  cases r
  case fromByte b => simp only [evalRequest_fromByte, Opcode.fromByte, h]
  case decode w => simp only [evalRequest_decode, decode_congr h]
  all_goals rfl

/-- Settles O20: permuted registries have the same entries, so they answer every lookup alike and hold the same opcodes. -/
theorem registryOrderHasNoEffect : Obligations.RegistryOrderHasNoEffect := by
  unfold Obligations.RegistryOrderHasNoEffect
  intro reg reg' perm r
  have same : ∀ e, e ∈ reg.entries ↔ e ∈ reg'.entries := fun _ => perm.mem_iff
  exact ⟨Machine.evalRequest_congr (Registry.lookup_congr same) r, forall₂_congr fun op _ => same op⟩

/-! ### The documentation strings -/

/-- What an entry says but for its documentation. -/
def Entry.undocumented (e : Entry) : Byte × String × Shape := (e.byte, e.mnemonic, e.shape)

/-- A lookup, as far as the documentation goes. -/
theorem Registry.lookup_undocumented (reg : Registry) (b : Byte) :
    (reg.lookup b).map Entry.undocumented = (reg.entries.map Entry.undocumented).find? fun k => k.1 == b := by
  rw [List.find?_map]
  rfl

/-- Registries that agree but for the documentation look a byte up alike: neither has it, or both have it with the same
byte, mnemonic and shape. -/
theorem Registry.lookup_cases_of_undocumented {reg reg' : Registry}
    (h : reg.entries.map Entry.undocumented = reg'.entries.map Entry.undocumented) (b : Byte) :
    (reg.lookup b = none ∧ reg'.lookup b = none) ∨
      ∃ e doc, reg.lookup b = some e ∧ reg'.lookup b = some { e with doc := doc } := by
  have same : (reg.lookup b).map Entry.undocumented = (reg'.lookup b).map Entry.undocumented := by
    rw [reg.lookup_undocumented, reg'.lookup_undocumented, h]
  cases found : reg.lookup b with
  | none => exact .inl ⟨rfl, by rwa [found, Option.map_none, eq_comm, Option.map_eq_none_iff] at same⟩
  | some e =>
    rw [found, Option.map_some, eq_comm, Option.map_eq_some_iff] at same
    obtain ⟨⟨byte, mnemonic, shape, doc⟩, found', agree⟩ := same
    cases e
    cases agree
    exact .inr ⟨_, doc, rfl, found'⟩

/-- Settles O21: the two lookups differ in documentation at most, which neither the row of a word, nor unpacking, nor
encoding reads. -/
theorem registryDocsHaveNoEffect : Obligations.RegistryDocsHaveNoEffect := by
  unfold Obligations.RegistryDocsHaveNoEffect
  intro reg reg' h w
  rcases Registry.lookup_cases_of_undocumented h w.b0 with ⟨hn, hn'⟩ | ⟨e, doc, hs, hs'⟩
  · refine ⟨by simp only [decodeInstr, hn, hn'], fun i decoded => ?_⟩
    rw [decode_of_unregistered ((reg.lookup_eq_none _).1 hn)] at decoded
    cases decoded
  · refine ⟨by simp only [decodeInstr, hs, hs']; rfl, fun i decoded => ?_⟩
    rw [decode_of_mem (Registry.lookup_mem hs) (Registry.lookup_byte hs)] at decoded
    cases decoded
    exact ⟨_, decode_of_mem (Registry.lookup_mem hs') (Registry.lookup_byte hs'), rfl, rfl, rfl⟩

end Sys2Proof
end

section
/-! PROOFS of 10_state.md, Value types: equality and hashing are structural (R17, R21). -/

namespace Sys2Proof

/-- R19: a tuple is its fields. -/
theorem Operands.ext_field {S : Shape} {t t' : Operands S} (h : ∀ n, t.field n = t'.field n) : t = t' := by
  cases t with
  | none => cases t'; rfl
  | r1 a => cases t'; cases h .registerA; rfl
  | r2 a b => cases t'; cases h .registerA; cases h .registerB; rfl
  | r3 a b c => cases t'; cases h .registerA; cases h .registerB; cases h .registerC; rfl
  | r4 a b c d => cases t'; cases h .registerA; cases h .registerB; cases h .registerC; cases h .registerD; rfl
  | r2i12 a b i => cases t'; cases h .registerA; cases h .registerB; cases h .immediate; rfl
  | r1i18 a i => cases t'; cases h .registerA; cases h .immediate; rfl
  | i24 i => cases t'; cases h .immediate; rfl

/-- R21: the block's comparison of two instructions is their equality. -/
theorem Machine.instructionEqual_iff (x y : Instruction) : instructionEqual x y = true ↔ x = y := by
  obtain ⟨op, t⟩ := x
  obtain ⟨op', t'⟩ := y
  constructor
  · intro h
    simp only [instructionEqual, Bool.and_eq_true, beq_iff_eq, List.all_cons, List.all_nil] at h
    obtain ⟨rfl, ha, hb, hc, hd, hi, -⟩ := h
    have fields : ∀ n, t.field n = t'.field n := fun n => by cases n <;> assumption
    rw [Operands.ext_field fields]
  · intro h
    cases h
    simp [instructionEqual]

theorem Machine.instructionEqual_eq_decide (x y : Instruction) : instructionEqual x y = decide (x = y) :=
  Bool.eq_iff_iff.2 ((instructionEqual_iff x y).trans decide_eq_true_iff.symm)

/-- R21: two instructions of a registry are equal exactly when their encodings are, since decoding inverts encoding. -/
theorem encode_injOn {reg : Registry} {x y : Instruction} (hx : x.of reg) (hy : y.of reg) :
    x = y ↔ encode x = encode y := by
  refine ⟨congrArg encode, fun same => ?_⟩
  have decoded := decode_encode hx
  rw [same, decode_encode hy, Result.ok.injEq] at decoded
  exact decoded.symm

theorem RegId.eq_iff_bits (x y : RegId) : x = y ↔ x.bits = y.bits := by cases x; cases y; simp
theorem Imm12.eq_iff_bits (x y : Imm12) : x = y ↔ x.bits = y.bits := by cases x; cases y; simp
theorem Imm18.eq_iff_bits (x y : Imm18) : x = y ↔ x.bits = y.bits := by cases x; cases y; simp
theorem Imm24.eq_iff_bits (x y : Imm24) : x = y ↔ x.bits = y.bits := by cases x; cases y; simp

/-- Comparing the bits of two values is comparing the values, where values with the same bits are equal. -/
theorem bitsEqual_eq_decide {n : Nat} {α : Type} [DecidableEq α] {x y : α} {u v : BitVec n} (h : x = y ↔ u = v) :
    (some (.ok (.bool (u == v))) : Option (Result Machine.Value)) = some (.ok (.bool (decide (x = y)))) ∧
      (x = y ↔ u.toNat = v.toNat) :=
  ⟨by simp only [beq_eq_decide, h], h.trans BitVec.toNat_inj.symm⟩

/-- Settles O29: the primitives are compared and hashed by their bits, instructions field by field and by their encoding. -/
theorem equalityAndHashingAreStructural : Obligations.EqualityAndHashingAreStructural := by
  unfold Obligations.EqualityAndHashingAreStructural
  intro reg
  refine ⟨fun x y => bitsEqual_eq_decide (x.eq_iff_bits y), fun x y => bitsEqual_eq_decide (x.eq_iff_bits y),
    fun x y => bitsEqual_eq_decide (x.eq_iff_bits y), fun x y => bitsEqual_eq_decide (x.eq_iff_bits y),
    fun x y => ⟨?instructions, encode_injOn⟩, ?hashRegId, ?hashInstruction⟩
  case instructions => rw [Machine.evalRequest, Machine.instructionEqual_eq_decide]
  case hashRegId => intro x y same; simp only [Machine.evalRequest, same]
  case hashInstruction => intro x y same; simp only [Machine.evalRequest, encodeU32, same]

end Sys2Proof
end

section
/-! PROOFS of 30_encoding.md, Opcode map, on the rows of the opcode table. The 18 rows are three forms: a word of an opcode
byte registered outside `TREG` with an operand tuple, a word of a `TREG` row with one, and a word of an unregistered byte.
Each function of the model on rows has one lemma per form here, and the statements about rows go through these. -/

namespace Sys2Proof

/-! ### The three forms of a row -/

/-- The row `<any REG opcode of shape S>` for an opcode byte and a tuple of that shape. -/
def Instr.ofAny (op : Byte) {S : Shape} : Operands S → Instr
  | .none => .anyNone op
  | .r1 a => .anyR1 op a
  | .r2 a b => .anyR2 op a b
  | .r3 a b c => .anyR3 op a b c
  | .r4 a b c d => .anyR4 op a b c d
  | .r2i12 a b i => .anyR2I12 op a b i
  | .r1i18 a i => .anyR1I18 op a i
  | .i24 i => .anyI24 op i

/-- The row of a `TREG` opcode (D9) for a tuple of its shape. -/
def Instr.ofTest (row : TestOpcode) (t : Operands row.entry.shape) : Instr :=
  match row, t with
  | .tnone, .none => .tnone
  | .tr1, .r1 a => .tr1 a
  | .tr2, .r2 a b => .tr2 a b
  | .tr3, .r3 a b c => .tr3 a b c
  | .tr4, .r4 a b c d => .tr4 a b c d
  | .tr2i12, .r2i12 a b i => .tr2i12 a b i
  | .tr1i18, .r1i18 a i => .tr1i18 a i
  | .ti24, .i24 i => .ti24 i
  | .tr3b, .r3 a b c => .tr3b a b c

/-- Every row has one of the three forms. -/
theorem Instr.form_cases (i : Instr) :
    (∃ (op : Byte) (S : Shape) (t : Operands S), i = .ofAny op t) ∨
      (∃ (row : TestOpcode) (t : Operands row.entry.shape), i = .ofTest row t) ∨
      ∃ op f, i = .unregistered op f := by
  cases i with
  | anyNone op => exact .inl ⟨op, _, .none, rfl⟩
  | anyR1 op a => exact .inl ⟨op, _, .r1 a, rfl⟩
  | anyR2 op a b => exact .inl ⟨op, _, .r2 a b, rfl⟩
  | anyR3 op a b c => exact .inl ⟨op, _, .r3 a b c, rfl⟩
  | anyR4 op a b c d => exact .inl ⟨op, _, .r4 a b c d, rfl⟩
  | anyR2I12 op a b i => exact .inl ⟨op, _, .r2i12 a b i, rfl⟩
  | anyR1I18 op a i => exact .inl ⟨op, _, .r1i18 a i, rfl⟩
  | anyI24 op i => exact .inl ⟨op, _, .i24 i, rfl⟩
  | unregistered op f => exact .inr (.inr ⟨op, f, rfl⟩)
  | tnone => exact .inr (.inl ⟨.tnone, .none, rfl⟩)
  | tr1 a => exact .inr (.inl ⟨.tr1, .r1 a, rfl⟩)
  | tr2 a b => exact .inr (.inl ⟨.tr2, .r2 a b, rfl⟩)
  | tr3 a b c => exact .inr (.inl ⟨.tr3, .r3 a b c, rfl⟩)
  | tr4 a b c d => exact .inr (.inl ⟨.tr4, .r4 a b c d, rfl⟩)
  | tr2i12 a b i => exact .inr (.inl ⟨.tr2i12, .r2i12 a b i, rfl⟩)
  | tr1i18 a i => exact .inr (.inl ⟨.tr1i18, .r1i18 a i, rfl⟩)
  | ti24 i => exact .inr (.inl ⟨.ti24, .i24 i, rfl⟩)
  | tr3b a b c => exact .inr (.inl ⟨.tr3b, .r3 a b c, rfl⟩)

theorem Instr.ofAny_ne_unregistered (op : Byte) {S : Shape} (t : Operands S) (op' : Byte) (f : Field) :
    Instr.ofAny op t ≠ .unregistered op' f := by
  cases t <;> exact Instr.noConfusion

theorem Instr.ofTest_ne_unregistered (row : TestOpcode) (t : Operands row.entry.shape) (op : Byte) (f : Field) :
    Instr.ofTest row t ≠ .unregistered op f := by
  cases row <;> cases t <;> exact Instr.noConfusion

/-! ### Well-formedness, form by form -/

@[simp] theorem wellFormed_ofAny (reg : Registry) (op : Byte) {S : Shape} (t : Operands S) :
    (Instr.ofAny op t).wellFormed reg = reg.hasOther op S := by
  cases t <;> rfl

@[simp] theorem wellFormed_ofTest (reg : Registry) (row : TestOpcode) (t : Operands row.entry.shape) :
    (Instr.ofTest row t).wellFormed reg = reg.hasRow row := by
  cases row <;> cases t <;> rfl

theorem wellFormed_unregistered (reg : Registry) (op : Byte) (f : Field) :
    (Instr.unregistered op f).wellFormed reg = true ↔ ∀ e ∈ reg.entries, e.byte ≠ op := by
  rw [Instr.wellFormed, Option.isNone_iff_eq_none, reg.lookup_eq_none]

/-! ### The word of a row, form by form: its opcode byte over its packed operands -/

/-- A pattern of the table as a word: its opcode byte over the operand field. -/
theorem bytes4_eq_wireWord {w : Word32} {op : Byte} {f : Field} (h : w.toNat = op.toNat * 2 ^ 24 + f.toNat) :
    bytes4 w = wireWord op (bytes3 f) := by
  have word : w = be32 (wireWord op (bytes3 f)) := by
    apply BitVec.eq_of_toNat_eq
    rw [be32_eq_append, append_toNat, wireWord_tail, be24_bytes3, h, wireWord_b0]
  rw [word, bytes4_be32]

theorem encodeInstr_ofAny (op : Byte) {S : Shape} (t : Operands S) :
    encodeInstr (.ofAny op t) = wireWord op (bytes3 (pack t)) := by
  apply bytes4_eq_wireWord
  cases t with
  | none => simp only [Instr.ofAny, instrWord, append_toNat, pack_none]
  | r1 a => simp only [Instr.ofAny, instrWord, append_toNat, pack_r1_toNat, RegId.value, BitVec.toNat_ofNat]; omega
  | r2 a b => simp only [Instr.ofAny, instrWord, append_toNat, pack_r2_toNat, RegId.value, BitVec.toNat_ofNat]; omega
  | r3 a b c =>
    simp only [Instr.ofAny, instrWord, append_toNat, pack_r3_toNat, RegId.value, BitVec.toNat_ofNat]; omega
  | r4 a b c d => simp only [Instr.ofAny, instrWord, append_toNat, pack_r4_toNat, RegId.value]; omega
  | r2i12 a b i =>
    simp only [Instr.ofAny, instrWord, append_toNat, pack_r2i12_toNat, RegId.value, Imm12.value]; omega
  | r1i18 a i => simp only [Instr.ofAny, instrWord, append_toNat, pack_r1i18_toNat, RegId.value, Imm18.value]; omega
  | i24 i => exact append_toNat op i.bits

/-- The pattern of a `TREG` row is that of its byte and shape. -/
theorem instrWord_ofTest (row : TestOpcode) (t : Operands row.entry.shape) :
    instrWord (.ofTest row t) = instrWord (.ofAny row.entry.byte t) := by
  cases row <;> cases t <;> rfl

theorem encodeInstr_ofTest (row : TestOpcode) (t : Operands row.entry.shape) :
    encodeInstr (.ofTest row t) = wireWord row.entry.byte (bytes3 (pack t)) := by
  rw [encodeInstr, instrWord_ofTest]
  exact encodeInstr_ofAny row.entry.byte t

theorem encodeInstr_unregistered (op : Byte) (f : Field) :
    encodeInstr (.unregistered op f) = wireWord op (bytes3 f) :=
  bytes4_eq_wireWord (append_toNat op f)

/-! ### The row of a word, form by form: the operands are what unpacking reads from the operand field -/

/-- The pattern bits of a word below its opcode byte are a slice of its operand field. -/
theorem extract_be32 (w : Bytes4) (lo n : Nat) (fits : lo + n ≤ 24) :
    (be32 w).extractLsb' lo n = slice (be24 w.tail) lo n := by
  ext i h
  rw [slice_getElem _ _ _ _ h, BitVec.getElem_extractLsb', be24_tail_getLsbD _ _ (by omega)]

theorem wordA_be32 (w : Bytes4) : wordA (be32 w) = ⟨slice (be24 w.tail) 18 6⟩ :=
  congrArg RegId.mk (extract_be32 w 18 6 (by omega))

theorem wordB_be32 (w : Bytes4) : wordB (be32 w) = ⟨slice (be24 w.tail) 12 6⟩ :=
  congrArg RegId.mk (extract_be32 w 12 6 (by omega))

theorem wordC_be32 (w : Bytes4) : wordC (be32 w) = ⟨slice (be24 w.tail) 6 6⟩ :=
  congrArg RegId.mk (extract_be32 w 6 6 (by omega))

theorem wordD_be32 (w : Bytes4) : wordD (be32 w) = ⟨slice (be24 w.tail) 0 6⟩ :=
  congrArg RegId.mk (extract_be32 w 0 6 (by omega))

theorem wordImm12_be32 (w : Bytes4) : wordImm12 (be32 w) = ⟨slice (be24 w.tail) 0 12⟩ :=
  congrArg Imm12.mk (extract_be32 w 0 12 (by omega))

theorem wordImm18_be32 (w : Bytes4) : wordImm18 (be32 w) = ⟨slice (be24 w.tail) 0 18⟩ :=
  congrArg Imm18.mk (extract_be32 w 0 18 (by omega))

theorem wordImm24_be32 (w : Bytes4) : wordImm24 (be32 w) = ⟨slice (be24 w.tail) 0 24⟩ :=
  congrArg Imm24.mk (extract_be32 w 0 24 (by omega))

theorem decodeAnyRow_be32 (op : Byte) (S : Shape) (w : Bytes4) :
    decodeAnyRow op S (be32 w) = .ofAny op (unpack S (be24 w.tail)) := by
  cases S <;>
    simp only [decodeAnyRow, wordA_be32, wordB_be32, wordC_be32, wordD_be32, wordImm12_be32, wordImm18_be32,
      wordImm24_be32] <;> rfl

theorem decodeTestRow_be32 (row : TestOpcode) (w : Bytes4) :
    decodeTestRow row (be32 w) = .ofTest row (unpack row.entry.shape (be24 w.tail)) := by
  cases row <;>
    simp only [decodeTestRow, wordA_be32, wordB_be32, wordC_be32, wordD_be32, wordImm12_be32, wordImm18_be32,
      wordImm24_be32] <;> rfl

/-- An operand field is the low 24 bits of its word. -/
theorem extract_be32_zero (w : Bytes4) : (be32 w).extractLsb' 0 24 = be24 w.tail := by
  ext i h
  rw [BitVec.getElem_extractLsb', Nat.zero_add, ← be24_tail_getLsbD _ _ h, BitVec.getLsbD_eq_getElem h]

theorem decodeInstr_of_hasOther {reg : Registry} {w : Bytes4} {S : Shape} (h : reg.hasOther w.b0 S = true) :
    decodeInstr reg w = .ofAny w.b0 (unpack S (be24 w.tail)) := by
  obtain ⟨e, found, rfl, other⟩ := (reg.hasOther_iff _ _).1 h
  simp only [decodeInstr, found, other, decodeAnyRow_be32]

theorem decodeInstr_of_hasRow {reg : Registry} {w : Bytes4} {row : TestOpcode} (h : reg.hasRow row = true)
    (hb : row.entry.byte = w.b0) : decodeInstr reg w = .ofTest row (unpack row.entry.shape (be24 w.tail)) := by
  obtain ⟨e, found, isRow⟩ := (reg.hasRow_iff row).1 h
  simp only [decodeInstr, ← hb, found, (e.testRow_eq_some row).2 isRow, decodeTestRow_be32]

theorem decodeInstr_of_unregistered {reg : Registry} {w : Bytes4} (h : ∀ e ∈ reg.entries, e.byte ≠ w.b0) :
    decodeInstr reg w = .unregistered w.b0 (be24 w.tail) := by
  simp only [decodeInstr, (reg.lookup_eq_none w.b0).2 h, extract_be32_zero]

/-- Which of the three forms a word has under a registry: its byte is an entry's, with or without a `TREG` row, or no
entry's. -/
theorem Registry.byte_cases (reg : Registry) (b : Byte) :
    (∃ e ∈ reg.entries, e.byte = b ∧ reg.hasOther b e.shape = true) ∨
      (∃ e ∈ reg.entries, ∃ row : TestOpcode, e.byte = b ∧ e.isRow row = true ∧ reg.hasRow row = true) ∨
      ∀ e ∈ reg.entries, e.byte ≠ b := by
  cases found : reg.lookup b with
  | none => exact .inr (.inr ((reg.lookup_eq_none b).1 found))
  | some e =>
    obtain ⟨he, rfl⟩ := (reg.lookup_eq_some b e).1 found
    cases row : e.testRow with
    | none => exact .inl ⟨e, he, rfl, (reg.hasOther_iff _ _).2 ⟨e, found, rfl, row⟩⟩
    | some r =>
      have isRow := (e.testRow_eq_some r).1 row
      rw [((e.isRow_iff r).1 isRow).1] at found
      exact .inr (.inl ⟨e, he, r, rfl, isRow, (reg.hasRow_iff r).2 ⟨e, found, isRow⟩⟩)

/-! ### The statements -/

/-- A well-formed row is read back from its word: its opcode byte selects its form again, and unpacking inverts packing. -/
theorem decodeInstr_encodeInstr {reg : Registry} {i : Instr} (h : i.wellFormed reg = true) :
    decodeInstr reg (encodeInstr i) = i := by
  rcases i.form_cases with ⟨op, S, t, rfl⟩ | ⟨row, t, rfl⟩ | ⟨op, f, rfl⟩
  · rw [wellFormed_ofAny] at h
    rw [encodeInstr_ofAny, decodeInstr_of_hasOther (w := wireWord op (bytes3 (pack t))) h, wireWord_tail, be24_bytes3,
      unpack_pack, wireWord_b0]
  · rw [wellFormed_ofTest] at h
    rw [encodeInstr_ofTest, decodeInstr_of_hasRow h (wireWord_b0 _ _).symm, wireWord_tail, be24_bytes3, unpack_pack]
  · rw [wellFormed_unregistered] at h
    rw [encodeInstr_unregistered, decodeInstr_of_unregistered (w := wireWord op (bytes3 f)) h, wireWord_tail,
      be24_bytes3, wireWord_b0]

/-- Settles O40, by `decodeInstr_encodeInstr`. -/
theorem rowsDecodeFromTheirWords : Obligations.RowsDecodeFromTheirWords := by
  unfold Obligations.RowsDecodeFromTheirWords
  exact fun _ _ => decodeInstr_encodeInstr

/-- Settles O41: a word has the form that its byte gives it; packing what was unpacked from it clears the reserved bits, and
an unregistered word is kept whole. -/
theorem everyWordIsAWellFormedRow : Obligations.EveryWordIsAWellFormedRow := by
  unfold Obligations.EveryWordIsAWellFormedRow
  intro reg w
  rcases reg.byte_cases w.b0 with ⟨e, he, hb, other⟩ | ⟨e, he, row, hb, isRow, holds⟩ | unregistered
  · rw [decodeInstr_of_hasOther other, wellFormed_ofAny, encodeInstr_ofAny, pack_unpack]
    refine ⟨other, fun e' he' hb' => ?_, fun absent => absurd hb (absent e he)⟩
    rw [reg.eq_of_byte he' he (hb'.trans hb.symm)]
  · obtain ⟨byte, shape, -⟩ := (e.isRow_iff row).1 isRow
    rw [decodeInstr_of_hasRow holds (byte.symm.trans hb), wellFormed_ofTest, encodeInstr_ofTest, pack_unpack]
    refine ⟨holds, fun e' he' hb' => ?_, fun absent => absurd hb (absent e he)⟩
    rw [reg.eq_of_byte he' he (hb'.trans hb.symm), ← byte, hb, shape]
  · rw [decodeInstr_of_unregistered unregistered, encodeInstr_unregistered, bytes3_be24, wireWord_eta]
    exact ⟨(wellFormed_unregistered _ _ _).2 unregistered, fun e he hb => absurd hb (unregistered e he), fun _ => rfl⟩

/-- Settles O39: five closed evaluations of the decoder (V6). -/
theorem specWordsDecodeToTheirRows : Obligations.SpecWordsDecodeToTheirRows := by
  unfold Obligations.SpecWordsDecodeToTheirRows
  decide

end Sys2Proof
end

section
/-! PROOFS of the rows' execution (44_instruction_union.md R110, 30_encoding.md R57, 60_exceptions.md R124): what a row of
each form answers, what it leaves unchanged, and that the row of a word answers what R110's decode answers for the word. -/

namespace Sys2Proof.Machine

/-! ### Execution, form by form -/

theorem exec_ofAny (op : Byte) {S : Shape} (t : Operands S) (s : State) :
    exec (.ofAny op t) s = respondRow op t s := by
  cases t <;> rfl

theorem exec_ofTest (row : TestOpcode) (t : Operands row.entry.shape) (s : State) :
    exec (.ofTest row t) s = respondTestRow row t s := by
  cases row <;> cases t <;> rfl

theorem exec_unregistered (op : Byte) (f : Field) (s : State) :
    exec (.unregistered op f) s = execUnregistered op f s := rfl

/-- R57: the row of an unregistered byte answers the error. -/
theorem exec_unregistered_of_absent {s : State} {op : Byte} (h : ∀ e ∈ s.reg.entries, e.byte ≠ op) (f : Field) :
    exec (.unregistered op f) s = .next (haltCaller s.active (deliver (.err .invalidOpcode) s)) := by
  rw [exec_unregistered, execUnregistered, (s.reg.lookup_eq_none op).2 h, raiseInvalidOpcode_eq]

/-! ### The rows' answers -/

/-- Settles O32, by `respondRow_of_mem` for each shape. -/
theorem anyRegisterRowsAnswer : Obligations.AnyRegisterRowsAnswer := by
  unfold Obligations.AnyRegisterRowsAnswer
  exact fun s op m doc a b c d => ⟨respondRow_of_mem .none, respondRow_of_mem (.r1 a), respondRow_of_mem (.r2 a b),
    respondRow_of_mem (.r3 a b c), respondRow_of_mem (.r4 a b c d)⟩

/-- Settles O33, by `respondRow_of_mem` for each shape. -/
theorem anyImmediateRowsAnswer : Obligations.AnyImmediateRowsAnswer := by
  unfold Obligations.AnyImmediateRowsAnswer
  exact fun s op m doc a b i j k => ⟨respondRow_of_mem (.r2i12 a b i), respondRow_of_mem (.r1i18 a j),
    respondRow_of_mem (.i24 k)⟩

/-- Settles O34, by `respondTestRow_of_mem` for each row. -/
theorem testRegisterRowsAnswer : Obligations.TestRegisterRowsAnswer := by
  unfold Obligations.TestRegisterRowsAnswer
  exact fun s doc a b c d => ⟨respondTestRow_of_mem .tnone .none, respondTestRow_of_mem .tr1 (.r1 a),
    respondTestRow_of_mem .tr2 (.r2 a b), respondTestRow_of_mem .tr3 (.r3 a b c),
    respondTestRow_of_mem .tr4 (.r4 a b c d), respondTestRow_of_mem .tr3b (.r3 a b c)⟩

/-- Settles O35, by `respondTestRow_of_mem` for each row. -/
theorem testImmediateRowsAnswer : Obligations.TestImmediateRowsAnswer := by
  unfold Obligations.TestImmediateRowsAnswer
  exact fun s doc a b i j k => ⟨respondTestRow_of_mem .tr2i12 (.r2i12 a b i), respondTestRow_of_mem .tr1i18 (.r1i18 a j),
    respondTestRow_of_mem .ti24 (.i24 k)⟩

/-- Settles O36, by `exec_unregistered_of_absent`: handing over the error and halting the caller are the three updates. -/
theorem unregisteredRowAnswersInvalidOpcode : Obligations.UnregisteredRowAnswersInvalidOpcode := by
  unfold Obligations.UnregisteredRowAnswersInvalidOpcode
  exact fun s op f h => exec_unregistered_of_absent h f

/-! ### The frame of the rows -/

/-- What a row that answers a next state has done: an instruction handed over, or, for the unregistered row, the error. -/
theorem exec_next {i : Instr} {s t : State} (h : exec i s = .next t) :
    (∃ j, t = deliver (.ok (.instruction j)) s ∧ ∀ op f, i ≠ .unregistered op f) ∨
      ((∃ op f, i = .unregistered op f) ∧ t = haltCaller s.active (deliver (.err .invalidOpcode) s)) := by
  rcases i.form_cases with ⟨op, S, x, rfl⟩ | ⟨row, x, rfl⟩ | ⟨op, f, rfl⟩
  · rw [exec_ofAny] at h
    rcases respondRow_cases op x s with ⟨j, answer⟩ | refused
    · cases answer.symm.trans h
      exact .inl ⟨j, rfl, Instr.ofAny_ne_unregistered op x⟩
    · cases refused.symm.trans h
  · rw [exec_ofTest] at h
    rcases respondTestRow_cases row x s with ⟨j, answer⟩ | refused
    · cases answer.symm.trans h
      exact .inl ⟨j, rfl, Instr.ofTest_ne_unregistered row x⟩
    · cases refused.symm.trans h
  · rw [exec_unregistered] at h
    rcases execUnregistered_cases op f s with answer | refused
    · cases answer.symm.trans h
      exact .inr ⟨⟨op, f, rfl⟩, rfl⟩
    · cases refused.symm.trans h

/-- What a caller has received after one result was handed over. -/
theorem resultsOf_of_served_one {s t : State} {d : Nat} {r : Result Value} (h : t.served = s.served ++ [⟨d, r⟩])
    (c : Nat) : t.resultsOf c = s.resultsOf c ++ if d = c then [r] else [] := by
  rw [resultsOf_of_served c h]
  by_cases same : d = c <;> simp [same]

/-- A result for one caller leaves what every other has received. -/
theorem resultsOf_of_served_ne {s t : State} {d : Nat} {r : Result Value} (h : t.served = s.served ++ [⟨d, r⟩])
    {c : Nat} (other : c ≠ d) : t.resultsOf c = s.resultsOf c := by
  rw [resultsOf_of_served_one h, if_neg other.symm, List.append_nil]

/-- Settles O37, by the two cases of `exec_next`. -/
theorem rowsChangeOnlyTheirCallersResult : Obligations.RowsChangeOnlyTheirCallersResult := by
  unfold Obligations.RowsChangeOnlyTheirCallersResult
  intro i s t h
  rcases exec_next h with ⟨j, rfl, registered⟩ | ⟨⟨op, f, rfl⟩, rfl⟩
  · exact ⟨rfl, rfl, ⟨_, rfl⟩, fun c => resultsOf_of_served_ne rfl, fun _ => ⟨rfl, rfl⟩,
      fun op f unregistered => absurd unregistered (registered op f)⟩
  · exact ⟨rfl, rfl, ⟨_, rfl⟩, fun c => resultsOf_of_served_ne rfl, fun registered => absurd rfl (registered op f),
      fun _ _ _ => ⟨rfl, rfl⟩⟩

/-! ### Where a row runs -/

/-- A row whose byte is registered with the shape of its operands answers. -/
theorem respondRow_of_shape {s : State} {e : Entry} (he : e ∈ s.reg.entries) (t : Operands e.shape) :
    respondRow e.byte t s = .next (deliver (.ok (.instruction ⟨e, t⟩)) s) :=
  respondRow_of_mem t he

/-- A `TREG` row answers where the registry has an entry that is it. -/
theorem respondTestRow_of_hasRow {s : State} {row : TestOpcode} (h : s.reg.hasRow row = true)
    (t : Operands row.entry.shape) : ∃ j, respondTestRow row t s = .next (deliver (.ok (.instruction j)) s) := by
  obtain ⟨e, found, isRow⟩ := (s.reg.hasRow_iff row).1 h
  obtain ⟨byte, shape, mnemonic⟩ := (e.isRow_iff row).1 isRow
  obtain ⟨b, m, S, doc⟩ := e
  cases byte
  cases shape
  cases mnemonic
  exact ⟨_, respondTestRow_of_mem row t (Registry.lookup_mem found)⟩

/-- A well-formed row answers a next state. -/
theorem exec_of_wellFormed {i : Instr} {s : State} (h : i.wellFormed s.reg = true) : ∃ t, exec i s = .next t := by
  rcases i.form_cases with ⟨op, S, x, rfl⟩ | ⟨row, x, rfl⟩ | ⟨op, f, rfl⟩
  · rw [wellFormed_ofAny] at h
    obtain ⟨e, found, rfl, -⟩ := (s.reg.hasOther_iff op S).1 h
    obtain ⟨he, rfl⟩ := (s.reg.lookup_eq_some op e).1 found
    exact ⟨_, (exec_ofAny e.byte x s).trans (respondRow_of_shape he x)⟩
  · rw [wellFormed_ofTest] at h
    obtain ⟨j, answer⟩ := respondTestRow_of_hasRow h x
    exact ⟨_, (exec_ofTest row x s).trans answer⟩
  · rw [wellFormed_unregistered] at h
    exact ⟨_, exec_unregistered_of_absent h f⟩

/-- Settles O38: a well-formed row answers (`exec_of_wellFormed`), and `exec_cases` lists every answer of a row. -/
theorem rowsRunWhereWellFormed : Obligations.RowsRunWhereWellFormed := by
  unfold Obligations.RowsRunWhereWellFormed
  refine fun i s => ⟨exec_of_wellFormed, fun r faulted => ?_, fun r refused => ?_⟩
  all_goals rcases exec_cases i s with ⟨j, answer⟩ | refusal | ⟨op, f, -, raised⟩
  · cases answer.symm.trans faulted
  · cases refusal.symm.trans faulted
  · cases raised.symm.trans faulted
  · cases answer.symm.trans refused
  · cases refusal.symm.trans refused
    rfl
  · cases raised.symm.trans refused

/-! ### The row of a word answers what decode answers -/

/-- The row of a word with a registered byte hands over the instruction of R110. -/
theorem exec_decodeInstr_of_mem {s : State} {w : Bytes4} {e : Entry} (he : e ∈ s.reg.entries) (hb : e.byte = w.b0) :
    exec (decodeInstr s.reg w) s = .next (deliver (.ok (.instruction ⟨e, unpack e.shape (be24 w.tail)⟩)) s) := by
  rcases s.reg.byte_cases w.b0 with ⟨e', he', hb', other⟩ | ⟨e', he', row, hb', isRow, holds⟩ | unregistered
  · obtain rfl := s.reg.eq_of_byte he' he (hb'.trans hb.symm)
    rw [decodeInstr_of_hasOther other, exec_ofAny, ← hb, respondRow_of_shape he]
  · obtain rfl := s.reg.eq_of_byte he' he (hb'.trans hb.symm)
    obtain ⟨byte, shape, mnemonic⟩ := (e'.isRow_iff row).1 isRow
    rw [decodeInstr_of_hasRow holds (byte.symm.trans hb), exec_ofTest]
    obtain ⟨b, m, S, doc⟩ := e'
    cases byte
    cases shape
    cases mnemonic
    exact respondTestRow_of_mem row _ he
  · exact absurd hb (unregistered e he)

/-- The refinement of R110's decode by the opcode table: executing the row of a word ends with decode's result. -/
theorem exec_decodeInstr (w : Bytes4) (s : State) :
    exec (decodeInstr s.reg w) s = respond (instructionResult (decode s.reg w)) s := by
  by_cases registered : ∃ e ∈ s.reg.entries, e.byte = w.b0
  · obtain ⟨e, he, hb⟩ := registered
    rw [exec_decodeInstr_of_mem he hb, decode_of_mem he hb, instructionResult, respond_ok]
  · have absent : ∀ e ∈ s.reg.entries, e.byte ≠ w.b0 := fun e he hb => registered ⟨e, he, hb⟩
    rw [decodeInstr_of_unregistered absent, exec_unregistered_of_absent absent, decode_of_unregistered absent,
      instructionResult, respond_err]

end Sys2Proof.Machine
end

section
/-! PROOFS of the step on one event (20_memory.md R34 to R38, 60_exceptions.md R124). A decode runs the row of its word,
which answers as R110's decode does, so every operation is served alike; a step that answers a next state is one of the
four cases of `StepNext`. -/

namespace Sys2Proof.Machine

/-! ### Serving one operation -/

/-- Serving a request whose opcodes are the registry's and which has a result ends with that result. -/
theorem serveRequest_of_eval {r : Request} {s : State} {res : Result Value} (hr : r.of s.reg)
    (answer : evalRequest s.reg r = some res) : serveRequest r s = respond res s := by
  rw [serveRequest, if_pos hr, answer]

/-- A decode needs no opcode of the registry: its argument is a word. -/
theorem decode_of_registry (reg : Registry) (w : Bytes4) : (Request.decode w).of reg :=
  fun _ h => absurd h List.not_mem_nil

/-- Every operation is served alike: a decode by its row answers as the evaluation of R110 does. -/
theorem runCall_eq_serveRequest (r : Request) (s : State) : runCall r s = serveRequest r s := by
  cases r
  case decode w =>
    rw [serveRequest_of_eval (decode_of_registry s.reg w) (evalRequest_decode s.reg w)]
    exact exec_decodeInstr w s
  all_goals rfl

/-! ### A step, event by event -/

theorem step_of_idle {s : State} (h : s.pending = []) : step s = .next s := by
  rw [step, stepEvent, h]

theorem step_of_halted {s : State} {e : Event} {rest : List Event} (h : s.pending = e :: rest)
    (halted : e.caller ∈ s.halted) : step s = .fault .callerHalted := by
  simp only [step, stepEvent, h, if_pos halted]

/-- An event of a caller that has not halted is run once it has left the queue. -/
theorem step_of_event {s : State} {e : Event} {rest : List Event} (h : s.pending = e :: rest)
    (live : e.caller ∉ s.halted) : step s = runEvent e (beginEvent e.caller rest s) := by
  simp only [step, stepEvent, h, if_neg live]

theorem step_of_call {s : State} {c : Nat} {r : Request} {rest : List Event} (h : s.pending = .call c r :: rest)
    (live : c ∉ s.halted) : step s = serveRequest r (beginEvent c rest s) :=
  (step_of_event h live).trans (runCall_eq_serveRequest r _)

theorem step_of_load {s : State} {c : Nat} {image : List Byte} {rest : List Event}
    (h : s.pending = .load c image :: rest) (live : c ∉ s.halted) :
    step s = loadImage c image (beginEvent c rest s) :=
  step_of_event h live

/-- A request that has a result: its caller gets it. -/
theorem step_of_eval {s : State} {c : Nat} {r : Request} {rest : List Event} {res : Result Value}
    (h : s.pending = .call c r :: rest) (live : c ∉ s.halted) (hr : r.of s.reg)
    (answer : evalRequest s.reg r = some res) : step s = respond res (beginEvent c rest s) :=
  (step_of_call h live).trans (serveRequest_of_eval hr answer)

/-- The caller's results and the registry after a request that has a result. -/
theorem step_of_eval_served {s : State} {c : Nat} {r : Request} {rest : List Event} {res : Result Value}
    (h : s.pending = .call c r :: rest) (live : c ∉ s.halted) (hr : r.of s.reg)
    (answer : evalRequest s.reg r = some res) :
    ∃ t, step s = .next t ∧ t.served = s.served ++ [⟨c, res⟩] ∧ t.reg = s.reg := by
  obtain ⟨t, responded, reg, -, served⟩ := respond_next res (beginEvent c rest s)
  exact ⟨t, (step_of_eval h live hr answer).trans responded, served, reg⟩

/-! ### What a step that answers a next state has done -/

/-- The steps that answer a next state: nothing pending; a value handed over; the error handed over to a caller, which
halts; an image cut into the decodes of its words. -/
inductive StepNext (s : State) : State → Prop where
  | idle (nothing : s.pending = []) : StepNext s s
  | value (c : Nat) (r : Request) (rest : List Event) (v : Value) (pending : s.pending = .call c r :: rest)
      (live : c ∉ s.halted) (hr : r.of s.reg) (answer : evalRequest s.reg r = some (.ok v)) :
      StepNext s (deliver (.ok v) (beginEvent c rest s))
  | error (c : Nat) (r : Request) (rest : List Event) (pending : s.pending = .call c r :: rest)
      (live : c ∉ s.halted) (hr : r.of s.reg) (answer : evalRequest s.reg r = some (.err .invalidOpcode)) :
      StepNext s (haltCaller c (deliver (.err .invalidOpcode) (beginEvent c rest s)))
  | load (c : Nat) (image : List Byte) (rest : List Event) (ws : List Bytes4)
      (pending : s.pending = .load c image :: rest) (live : c ∉ s.halted) (cut : imageWords image = some ws) :
      StepNext s { beginEvent c rest s with pending := ws.map (fun w => .call c (.decode w)) ++ rest }

theorem step_next {s t : State} (h : step s = .next t) : StepNext s t := by
  rcases stepEvent_next h with ⟨nothing, rfl⟩ | ⟨e, rest, pending, live, ran⟩
  · exact .idle nothing
  · cases e with
    | call c r =>
      replace ran : serveRequest r (beginEvent c rest s) = .next t := (runCall_eq_serveRequest r _).symm.trans ran
      rcases serveRequest_cases r (beginEvent c rest s) with ⟨hr, res, answer, served⟩ | ⟨-, -, refused⟩ | ⟨-, refused⟩
      · rw [served] at ran
        match res with
        | .ok v => cases ran; exact .value c r rest v pending live hr answer
        | .err .invalidOpcode => cases ran; exact .error c r rest pending live hr answer
      · cases refused.symm.trans ran
      · cases refused.symm.trans ran
    | load c image =>
      rcases loadImage_cases c image (beginEvent c rest s) with ⟨ws, cut, loaded⟩ | ⟨-, refused⟩
      · cases loaded.symm.trans ran
        exact .load c image rest ws pending live cut
      · cases refused.symm.trans ran

/-- A step on an operation that answers a next state has handed its result over. -/
theorem eval_of_step_call {s t : State} {c : Nat} {r : Request} {rest : List Event}
    (h : s.pending = .call c r :: rest) (stepped : step s = .next t) :
    r.of s.reg ∧ ∃ v, evalRequest s.reg r = some v ∧ t.served = s.served ++ [⟨c, v⟩] := by
  cases step_next stepped with
  | idle nothing => cases nothing.symm.trans h
  | value c' r' rest' v pending live hr answer =>
    cases pending.symm.trans h
    exact ⟨hr, _, answer, rfl⟩
  | error c' r' rest' pending live hr answer =>
    cases pending.symm.trans h
    exact ⟨hr, _, answer, rfl⟩
  | load c' image rest' ws pending live cut => cases pending.symm.trans h

/-! ### The statements on one step -/

/-- Settles O42: a decode runs the row of its word, and the row of an encoded row is that row again. -/
theorem stepRunsTheDecodedRow : Obligations.StepRunsTheDecodedRow := by
  unfold Obligations.StepRunsTheDecodedRow
  intro s c rest live
  have runs : ∀ w, s.pending = .call c (.decode w) :: rest →
      step s = exec (decodeInstr s.reg w) { s with pending := rest, active := c } := fun _ h => step_of_event h live
  refine ⟨runs, fun i wf h => ?_⟩
  rw [runs _ h, decodeInstr_encodeInstr wf]

/-- Settles O44: a served request ends in `respond`, in each of its two cases, or is refused when it has no result. -/
theorem stepServesOneOperation : Obligations.StepServesOneOperation := by
  unfold Obligations.StepServesOneOperation
  intro s c r rest h live hr
  refine ⟨fun v => step_of_eval h live hr, fun err => ?_, fun unanswered => ?_⟩
  · cases err
    exact step_of_eval h live hr
  · rw [step_of_call h live, serveRequest, beginEvent_reg, if_pos hr, unanswered]

/-- Settles O43: a decode is an operation like every other (O44), and its result is R110's on the output bus. -/
theorem stepOfDecodeAgreesWithDecode : Obligations.StepOfDecodeAgreesWithDecode := by
  unfold Obligations.StepOfDecodeAgreesWithDecode
  intro s c w rest h live
  obtain ⟨value, error, -⟩ := stepServesOneOperation s c _ rest h live (decode_of_registry s.reg w)
  refine ⟨fun i decoded => value _ ?_, fun failed => error _ ?_⟩
  · rw [evalRequest_decode, decoded, instructionResult]
  · rw [evalRequest_decode, failed, instructionResult]

/-- Settles O45: serving checks the opcodes first. -/
theorem foreignOpcodesAreRefused : Obligations.ForeignOpcodesAreRefused := by
  unfold Obligations.ForeignOpcodesAreRefused
  intro s c r rest h live foreign
  rw [step_of_call h live, serveRequest, beginEvent_reg, if_neg foreign]

/-- Settles O48, by `step_of_halted`. -/
theorem haltedCallersFault : Obligations.HaltedCallersFault := by
  unfold Obligations.HaltedCallersFault
  exact fun _ _ _ => step_of_halted

/-- Settles O49, by `step_of_idle`. -/
theorem idleStepChangesNothing : Obligations.IdleStepChangesNothing := by
  unfold Obligations.IdleStepChangesNothing
  exact fun _ => step_of_idle

/-- Settles O51: the presented decode is the head of the queue and its caller, the active one, is no longer halted; once
it has left the queue, the halts are all that presenting it has changed. -/
theorem fetchWordRunsNext : Obligations.FetchWordRunsNext := by
  unfold Obligations.FetchWordRunsNext
  intro s nbits w
  have live : s.active ∉ (s.withFetchWord nbits w).halted := by simp [State.withFetchWord]
  exact step_of_event (e := .call s.active (.decode (tableWord nbits w))) rfl live

/-! ### The loader -/

/-- R34: word `k` of an image of `n` words is its bytes `4k` to `4k + 3`. -/
theorem imageWords_eq_range (n : Nat) (image : List Byte) (h : image.length = 4 * n) :
    imageWords image = some ((List.range n).map fun k =>
      ⟨image.getD (4 * k) 0, image.getD (4 * k + 1) 0, image.getD (4 * k + 2) 0, image.getD (4 * k + 3) 0⟩) := by
  induction n generalizing image with
  | zero =>
    rw [List.length_eq_zero_iff.1 h]
    rfl
  | succ n ih =>
    match image, h with
    | b0 :: b1 :: b2 :: b3 :: rest, h =>
      have hrest : rest.length = 4 * n := by simp only [List.length_cons] at h; omega
      rw [imageWords, ih rest hrest, List.range_succ_eq_map]
      simp [Nat.mul_succ, Function.comp_def]

/-- R35: an image that is no whole number of words is not cut. -/
theorem imageWords_eq_none {image : List Byte} (h : image.length % 4 ≠ 0) : imageWords image = none := by
  cases cut : imageWords image with
  | none => rfl
  | some ws => exact absurd (by rw [length_of_imageWords cut, Nat.mul_mod_right]) h

/-- R34: an image that is cut is queued as the decodes of its words. -/
theorem loadImage_of_cut (c : Nat) {image : List Byte} {ws : List Bytes4} {s : State} (cut : imageWords image = some ws) :
    loadImage c image s = .next { s with pending := ws.map (fun w => .call c (.decode w)) ++ s.pending } := by
  rw [loadImage, cut]

/-- Settles O46, by `imageWords_eq_range`. -/
theorem loaderCutsImagesIntoWords : Obligations.LoaderCutsImagesIntoWords := by
  unfold Obligations.LoaderCutsImagesIntoWords
  intro s c image rest n h live length
  rw [step_of_load h live, loadImage_of_cut _ (imageWords_eq_range n image length), List.map_map]
  rfl

/-- Settles O47, by `imageWords_eq_none`. -/
theorem loaderRefusesPartialWords : Obligations.LoaderRefusesPartialWords := by
  unfold Obligations.LoaderRefusesPartialWords
  intro s c image rest h live uneven
  rw [step_of_load h live, loadImage, imageWords_eq_none uneven]

/-! ### What a result depends on -/

/-- Settles O56: the first step tells the result, which the other machine's step hands over too, since it has the same
registry. -/
theorem resultsDependOnArgumentsAndRegistry : Obligations.ResultsDependOnArgumentsAndRegistry := by
  unfold Obligations.ResultsDependOnArgumentsAndRegistry
  intro s s' t c c' r rest rest' hreg h h' live' stepped
  obtain ⟨hr, v, answer, served⟩ := eval_of_step_call h stepped
  rw [hreg] at hr answer
  obtain ⟨t', stepped', served', -⟩ := step_of_eval_served h' live' hr answer
  exact ⟨v, t', stepped', served, served'⟩

/-- Settles O50: O56's argument with the machine after reset as the other one, which has served nothing. -/
theorem resetChangesNoResult : Obligations.ResetChangesNoResult := by
  unfold Obligations.ResetChangesNoResult
  intro s t c r rest h stepped
  obtain ⟨hr, v, answer, served⟩ := eval_of_step_call h stepped
  obtain ⟨t', stepped', served', reg'⟩ :=
    step_of_eval_served (s := { State.resetWith s.reg with pending := [.call c r] }) rfl List.not_mem_nil hr answer
  exact ⟨v, t', served, stepped', served', reg'⟩

end Sys2Proof.Machine
end

section
/-! PROOFS of the invariant and of the whole-machine rules (10_state.md R13, R18, 20_memory.md R34, R40, 60_exceptions.md
R124, R133). Every rule about a step goes through the four cases of `StepNext`; the rule about a whole run is an induction
on the number of steps, with the rule about one step. -/

namespace Sys2Proof.Machine

/-! ### What a step never undoes -/

/-- Settles O55: results and halts are appended to, and the registry is in no update. -/
theorem stepsNeverUndoResultsOrHalts : Obligations.StepsNeverUndoResultsOrHalts := by
  unfold Obligations.StepsNeverUndoResultsOrHalts
  intro s t stepped
  cases step_next stepped with
  | idle => exact ⟨rfl, List.prefix_rfl, List.prefix_rfl⟩
  | value => exact ⟨rfl, List.prefix_append _ _, List.prefix_rfl⟩
  | error => exact ⟨rfl, List.prefix_append _ _, List.prefix_append _ _⟩
  | load => exact ⟨rfl, List.prefix_rfl, List.prefix_rfl⟩

/-! ### Halted callers are quiet -/

/-- An event still in the queue belongs to a caller that has not halted, where that held of the whole queue. -/
theorem State.HaltedCallersAreQuiet.of_cons {s : State} {e : Event} {rest : List Event} (quiet : s.HaltedCallersAreQuiet)
    (pending : s.pending = e :: rest) : ∀ e' ∈ rest, e'.caller ∉ s.halted :=
  fun e' he' => quiet e' (pending ▸ List.mem_cons_of_mem e he')

/-- R124: every step keeps the halted callers quiet. A caller that halts takes its events off the queue, and an image puts
the decodes of a caller on it that has not halted. -/
theorem StepNext.quiet {s t : State} (quiet : s.HaltedCallersAreQuiet) (stepped : StepNext s t) :
    t.HaltedCallersAreQuiet := by
  cases stepped with
  | idle => exact quiet
  | value c r rest v pending => exact fun e => quiet.of_cons pending e
  | error c r rest pending =>
    intro e he
    obtain ⟨he, other⟩ := List.mem_filter.1 he
    have live := quiet.of_cons pending e he
    simpa [live] using other
  | load c image rest ws pending live =>
    intro e he
    rcases List.mem_append.1 he with decodes | he
    · obtain ⟨w, -, rfl⟩ := List.mem_map.1 decodes
      exact live
    · exact quiet.of_cons pending e he

/-! ### Exactly the callers that got the error are halted -/

/-- A caller has received the error. -/
def GotError (served : List Served) (c : Nat) : Prop :=
  ∃ v ∈ served, v.caller = c ∧ v.result = .err .invalidOpcode

theorem gotError_append_ok (served : List Served) (c d : Nat) (v : Value) :
    GotError (served ++ [⟨d, .ok v⟩]) c ↔ GotError served c := by
  simp [GotError, or_and_right, exists_or]

theorem gotError_append_err (served : List Served) (c d : Nat) :
    GotError (served ++ [⟨d, .err .invalidOpcode⟩]) c ↔ GotError served c ∨ c = d := by
  simp [GotError, or_and_right, exists_or, eq_comm]

/-- R124, R127: every step halts a caller exactly where it hands it the error. -/
theorem StepNext.haltedIffError {s t : State} (error : s.HaltedIffError) (stepped : StepNext s t) :
    t.HaltedIffError := by
  cases stepped with
  | idle => exact error
  | value c r rest v => exact fun d => (error d).trans (gotError_append_ok s.served d c v).symm
  | error c r rest =>
    intro d
    have halts : d ∈ s.halted ++ [c] ↔ d ∈ s.halted ∨ d = c := by rw [List.mem_append, List.mem_singleton]
    exact halts.trans ((or_congr_left (error d)).trans (gotError_append_err s.served d c).symm)
  | load => exact error

/-! ### Outputs are the registry's -/

/-- R110: an instruction that is decoded is the registry's. -/
theorem of_of_decode {reg : Registry} {w : Bytes4} {i : Instruction} (decoded : decode reg w = .ok i) : i.of reg := by
  by_cases registered : ∃ e ∈ reg.entries, e.byte = w.b0
  · obtain ⟨e, he, hb⟩ := registered
    rw [decode_of_mem he hb] at decoded
    cases decoded
    exact he
  · rw [decode_of_unregistered fun e he hb => registered ⟨e, he, hb⟩] at decoded
    cases decoded

/-- R92 to R95: a register accessor answers a register. -/
theorem eq_regId_of_registerValue {r : Option RegId} {v : Value} (h : registerValue r = some (.ok v)) :
    ∃ a, v = .regId a := by
  cases r with
  | none => cases h
  | some a => cases h; exact ⟨a, rfl⟩

/-- R96: the immediate accessor answers an immediate. -/
theorem eq_immediate_of_immediateValue {i : Option Immediate} {v : Value} (h : immediateValue i = some (.ok v)) :
    ∃ a, v = .immediate a := by
  cases i with
  | none => cases h
  | some a => cases h; exact ⟨a, rfl⟩

/-- R18, R20: the opcode of a value that an operation answers is an argument's, or the entry that was looked up. -/
theorem holds_of_evalRequest {reg : Registry} {r : Request} (hr : r.of reg) {v : Value}
    (answer : evalRequest reg r = some (.ok v)) {op : Opcode} (carried : op ∈ v.opcode?) : reg.holds op := by
  cases r
  case fromByte b =>
    cases found : Opcode.fromByte reg b with
    | ok entry =>
      rw [evalRequest_fromByte, found] at answer
      cases answer
      cases carried
      exact ((Opcode.fromByte_eq_ok_iff reg b _).1 found).1
    | err e =>
      rw [evalRequest_fromByte, found] at answer
      cases answer
  case decode w =>
    cases decoded : decode reg w with
    | ok i =>
      rw [evalRequest_decode, decoded] at answer
      cases answer
      cases carried
      exact of_of_decode decoded
    | err e =>
      rw [evalRequest_decode, decoded] at answer
      cases answer
  case opRegisterA o x | opRegisterB o x | opRegisterC o x | opRegisterD o x =>
    obtain ⟨a, rfl⟩ := eq_regId_of_registerValue answer
    cases carried
  case opImmediate o x =>
    obtain ⟨a, rfl⟩ := eq_immediate_of_immediateValue answer
    cases carried
  case opNew o t | opIntoInstruction o t | opFromOperandBytes o t | construct o t =>
    cases answer
    cases carried
    exact hr _ List.mem_cons_self
  case opcodeOf i =>
    cases answer
    cases carried
    exact hr _ List.mem_cons_self
  all_goals
    cases answer
    cases carried

/-- Every step hands over values of the registry only. -/
theorem StepNext.outputs {s t : State} (outputs : s.OutputsOfRegistry) (stepped : StepNext s t) :
    t.OutputsOfRegistry := by
  cases stepped with
  | idle => exact outputs
  | value c r rest v pending live hr answer =>
    intro u hu x result op carried
    rcases List.mem_append.1 hu with old | new
    · exact outputs u old x result op carried
    · obtain rfl := List.mem_singleton.1 new
      cases result
      exact holds_of_evalRequest hr answer carried
  | error c r rest =>
    intro u hu x result op carried
    rcases List.mem_append.1 hu with old | new
    · exact outputs u old x result op carried
    · obtain rfl := List.mem_singleton.1 new
      cases result
  | load => exact outputs

/-! ### The invariant -/

theorem inv_resetWith (reg : Registry) : (State.resetWith reg).Inv where
  quiet := fun _ h => absurd h List.not_mem_nil
  error := fun _ => by simp
  outputs := fun _ h => absurd h List.not_mem_nil

/-- Settles O52, by `inv_resetWith`: reset builds the machine with one of the registries. -/
theorem resetMeetsTheInvariant : Obligations.ResetMeetsTheInvariant := by
  unfold Obligations.ResetMeetsTheInvariant
  exact ⟨inv_resetWith, inv_resetWith _⟩

/-- Settles O53, part by part of the invariant. -/
theorem everyStepKeepsTheInvariant : Obligations.EveryStepKeepsTheInvariant := by
  unfold Obligations.EveryStepKeepsTheInvariant
  intro s t inv stepped
  have next := step_next stepped
  exact ⟨next.quiet inv.quiet, next.haltedIffError inv.error, next.outputs inv.outputs⟩

/-- Serving a request never faults. -/
theorem serveRequest_ne_fault (r : Request) (s : State) (why : Fault) : serveRequest r s ≠ .fault why := by
  intro faulted
  rcases serveRequest_cases r s with ⟨-, res, -, served⟩ | ⟨-, -, refused⟩ | ⟨-, refused⟩
  · obtain ⟨t, responded, -⟩ := respond_next res s
    cases (served.trans responded).symm.trans faulted
  · cases refused.symm.trans faulted
  · cases refused.symm.trans faulted

/-- A step faults on an event of a halted caller only. -/
theorem step_ne_fault {s : State} (quiet : s.HaltedCallersAreQuiet) (why : Fault) : step s ≠ .fault why := by
  intro faulted
  cases pending : s.pending with
  | nil => cases (step_of_idle pending).symm.trans faulted
  | cons e rest =>
    have live : e.caller ∉ s.halted := quiet e (pending ▸ List.mem_cons_self)
    cases e with
    | call c r => exact serveRequest_ne_fault r _ why ((step_of_call pending live).symm.trans faulted)
    | load c image =>
      rw [step_of_load pending live] at faulted
      rcases loadImage_cases c image (beginEvent c rest s) with ⟨ws, -, loaded⟩ | ⟨-, refused⟩
      · cases loaded.symm.trans faulted
      · cases refused.symm.trans faulted

/-- Settles O54: the invariant holds no halted caller's event (`step_ne_fault`). -/
theorem noFaultUnderTheInvariant : Obligations.NoFaultUnderTheInvariant := by
  unfold Obligations.NoFaultUnderTheInvariant
  exact fun s inv => step_ne_fault inv.quiet

/-! ### What each caller gets is what it gets alone -/

/-- What a caller has received, followed by what its pending operations give it alone. -/
def lifetimeResults (s : State) (c : Nat) : List (Result Value) :=
  s.resultsOf c ++ aloneResults s.reg (requestsOf c s.pending)

/-- An image that is cut presents the decodes of its words (R34). -/
theorem requests_load_of_cut (c : Nat) {image : List Byte} {ws : List Bytes4} (cut : imageWords image = some ws) :
    (Event.load c image).requests = ws.map .decode := by
  rw [Event.requests, cut, Option.getD_some]

/-- R40, R133: a step moves the first lone result of the caller it serves to the results received, the error with the end
of that caller's operations (R124), and changes nothing for the others. -/
theorem StepNext.lifetimeResults_eq {s t : State} (stepped : StepNext s t) (c : Nat) :
    lifetimeResults t c = lifetimeResults s c := by
  unfold lifetimeResults
  cases stepped with
  | idle => rfl
  | value d r rest v pending live hr answer =>
    rw [resultsOf_of_served_one (s := s) (d := d) rfl, pending, requestsOf_cons]
    by_cases own : d = c
    · simp [own, aloneResults_ok s.reg answer]
    · simp [own]
  | error d r rest pending live hr answer =>
    rw [resultsOf_of_served_one (s := s) (d := d) rfl, pending, requestsOf_cons]
    by_cases own : d = c
    · simp [own, aloneResults_err s.reg answer]
    · simp [own, requestsOf_filter_ne c d rest (Ne.symm own)]
  | load d image rest ws pending live cut =>
    change s.resultsOf c ++ aloneResults s.reg (requestsOf c (ws.map (fun w => .call d (.decode w)) ++ rest)) = _
    rw [pending, requestsOf_append, requestsOf_decodes, requestsOf_cons, requests_load_of_cut d cut]
    by_cases own : d = c <;> simp [own]

/-- Settles O58, by `StepNext.quiet` and `StepNext.lifetimeResults_eq`. -/
theorem stepsKeepEveryCallersResults : Obligations.StepsKeepEveryCallersResults := by
  unfold Obligations.StepsKeepEveryCallersResults
  intro s t quiet stepped
  have next := step_next stepped
  exact ⟨next.quiet quiet, next.lifetimeResults_eq⟩

/-! ### A run serves every caller -/

/-- How many steps serve what is pending. -/
def State.stepsLeft (s : State) : Nat := (s.pending.map Event.steps).sum

/-- Every event takes a step. -/
theorem Event.steps_pos (e : Event) : 0 < e.steps := by
  cases e with
  | call c r => exact Nat.one_pos
  | load c image => exact Nat.add_pos_left Nat.one_pos _

theorem pending_of_stepsLeft_zero {s : State} (h : s.stepsLeft = 0) : s.pending = [] := by
  cases pending : s.pending with
  | nil => rfl
  | cons e rest =>
    have := e.steps_pos
    simp only [State.stepsLeft, pending, List.map_cons, List.sum_cons] at h
    omega

/-- The decodes of an image's words take one step each. -/
theorem sum_steps_decodes (c : Nat) (ws : List Bytes4) :
    ((ws.map fun w => Event.call c (.decode w)).map Event.steps).sum = ws.length := by
  induction ws with
  | nil => rfl
  | cons w ws ih => simp only [List.map_cons, List.sum_cons, ih, Event.steps, List.length_cons]; omega

/-- Taking a caller's events off the queue leaves no more steps. -/
theorem sum_steps_filter_le (p : Event → Bool) (es : List Event) :
    ((es.filter p).map Event.steps).sum ≤ (es.map Event.steps).sum :=
  (List.filter_sublist.map _).sum_le_sum fun _ _ => Nat.zero_le _

/-- A step leaves one step fewer, or fewer still where a caller has halted. -/
theorem StepNext.stepsLeft_le {s t : State} (stepped : StepNext s t) : t.stepsLeft ≤ s.stepsLeft - 1 := by
  unfold State.stepsLeft
  cases stepped with
  | idle nothing => simp [nothing]
  | value c r rest v pending => simp [pending, Event.steps]
  | error c r rest pending => simpa [pending, Event.steps] using sum_steps_filter_le _ rest
  | load c image rest ws pending live cut =>
    have length := length_of_imageWords cut
    simp only [pending, List.map_append, List.sum_append, sum_steps_decodes, List.map_cons, List.sum_cons, Event.steps]
    omega

/-- Events that can be served stay so, and the decodes of an image can be. -/
theorem StepNext.answerable {s t : State} (stepped : StepNext s t) (answerable : ∀ e ∈ s.pending, e.Answerable s.reg) :
    ∀ e ∈ t.pending, e.Answerable t.reg := by
  cases stepped with
  | idle => exact answerable
  | value c r rest v pending => exact fun e he => answerable e (pending ▸ List.mem_cons_of_mem _ he)
  | error c r rest pending =>
    exact fun e he => answerable e (pending ▸ List.mem_cons_of_mem _ (List.mem_filter.1 he).1)
  | load c image rest ws pending =>
    intro e he
    rcases List.mem_append.1 he with decodes | he
    · obtain ⟨w, -, rfl⟩ := List.mem_map.1 decodes
      exact ⟨decode_of_registry s.reg w, by rw [evalRequest_decode]; exact Option.some_ne_none _⟩
    · exact answerable e (pending ▸ List.mem_cons_of_mem _ he)

/-- A step answers a next state where the next event can be served. -/
theorem step_answers {s : State} (quiet : s.HaltedCallersAreQuiet) (answerable : ∀ e ∈ s.pending, e.Answerable s.reg) :
    ∃ t, step s = .next t := by
  cases pending : s.pending with
  | nil => exact ⟨s, step_of_idle pending⟩
  | cons e rest =>
    have here : e ∈ s.pending := pending ▸ List.mem_cons_self
    have live := quiet e here
    have served := answerable e here
    cases e with
    | call c r =>
      obtain ⟨hr, answered⟩ := served
      obtain ⟨res, answer⟩ := Option.ne_none_iff_exists'.1 answered
      obtain ⟨t, stepped, -⟩ := step_of_eval_served pending live hr answer
      exact ⟨t, stepped⟩
    | load c image =>
      obtain ⟨ws, cut⟩ := imageWords_isSome image served
      exact ⟨_, (step_of_load pending live).trans (loadImage_of_cut c cut)⟩

theorem run_succ_of_step {s t : State} (stepped : step s = .next t) (k : Nat) :
    Host.Core.run core (k + 1) s = Host.Core.run core k t := by
  have coreStep : core.step s = .next t := stepped
  simp only [Host.Core.run, coreStep]

/-- A run of enough steps serves everything, each caller with the results it gets alone: by induction on the steps, each
of which keeps a caller's results, received and still to come (`StepNext.lifetimeResults_eq`). -/
theorem run_serves_all (k : Nat) (s : State) (quiet : s.HaltedCallersAreQuiet)
    (answerable : ∀ e ∈ s.pending, e.Answerable s.reg) (enough : s.stepsLeft ≤ k) :
    ∃ t : State, Host.Core.run core k s = .next t ∧ t.pending = [] ∧ ∀ c, t.resultsOf c = lifetimeResults s c := by
  induction k generalizing s with
  | zero =>
    have nothing := pending_of_stepsLeft_zero (Nat.le_zero.1 enough)
    exact ⟨s, rfl, nothing, fun c => by simp [lifetimeResults, nothing]⟩
  | succ k ih =>
    obtain ⟨t, stepped⟩ := step_answers quiet answerable
    have next := step_next stepped
    have fewer : t.stepsLeft ≤ k := le_trans next.stepsLeft_le (Nat.sub_le_of_le_add enough)
    obtain ⟨u, ran, served, results⟩ := ih t (next.quiet quiet) (next.answerable answerable) fewer
    exact ⟨u, (run_succ_of_step stepped k).trans ran, served, fun c => (results c).trans (next.lifetimeResults_eq c)⟩

/-- Settles O57, by `run_serves_all` for exactly the steps that the pending events take. -/
theorem interleavedCallersGetTheirLoneResults : Obligations.InterleavedCallersGetTheirLoneResults := by
  unfold Obligations.InterleavedCallersGetTheirLoneResults
  exact fun s quiet answerable => run_serves_all _ s quiet answerable le_rfl

end Sys2Proof.Machine
end
